-- ==== Sys2Proof/Word.lean ====
section
/-! DEFINITION. The value types of the core and their plainest arithmetic (R5, R7, R10). All values are unsigned (R7, R145). -/

namespace Sys2Proof

/-- An 8-bit value: a general register, a timer, a byte of memory, the immediate NN. -/
abbrev Byte := BitVec 8

/-- A 16-bit value: an instruction word, I, PC, a stack entry. -/
abbrev Word := BitVec 16

/-- A 4-bit field of an instruction word (R12). -/
abbrev Nibble := BitVec 4

/-- The 12-bit address operand NNN. -/
abbrev Addr12 := BitVec 12

/-- The index of a general register, V0 to VF (R20). -/
abbrev RegIdx := Fin 16

/-- `zext_16` of an address operand (R7, R72). -/
def Addr12.zext (a : Addr12) : Word := a.setWidth 16

/-- `zext_16` of a byte (R7). -/
def Byte.zext (b : Byte) : Word := b.setWidth 16

/-- The 16-bit word whose bits 15:8 are `hi` and whose bits 7:0 are `lo` (R53, R70). -/
def Word.ofBytes (hi lo : Byte) : Word := hi ++ lo

/-- Bits 15:8 of a word. -/
def Word.hi (w : Word) : Byte := w.extractLsb' 8 8

/-- Bits 7:0 of a word. -/
def Word.lo (w : Word) : Byte := w.extractLsb' 0 8

end Sys2Proof
end

