-- ==== Sys2Proof/Config.lean ====
section
/-! DEFINITION. The fixed parameters of rule R5, the default of the parameter FONT (R6, R33), and the free random draw (R150, D22). -/

namespace Sys2Proof

/-- Bytes of memory, addresses 0 to 4095 (R5, R50). -/
abbrev Config.memSize : Nat := 4096

/-- Bytes of the font, addresses 0 to 79 (R5, R33). -/
abbrev Config.fontSize : Nat := 80

/-- Bytes of one glyph (R5). -/
abbrev Config.glyphBytes : Nat := 5

/-- ROM load address and reset value of PC (R5). -/
abbrev Config.progBase : Nat := 512

/-- The longest ROM the load operation accepts (R5, R221). -/
abbrev Config.romMax : Nat := 3584

/-- Entries of the return-address stack (R5, R27). -/
abbrev Config.stackDepth : Nat := 16

/-- The index of the flag register VF (R5, R21). -/
abbrev Config.flagReg : RegIdx := 15

/-- The 80 bytes of a font: glyph d is bytes 5·d to 5·d + 4 (R33). -/
abbrev Font := Vector Byte 80

/-- The conventional Chip-8 font, R33's default of the parameter FONT (D15).
PRESUMED, unsafe (assumption 1): the spec supplies it from general knowledge. No statement rests on these bytes:
the font a machine holds is a field of its state, and statements hold for every font. -/
def Config.defaultFont : Font :=
  ⟨(([0xF0, 0x90, 0x90, 0x90, 0xF0,   0x20, 0x60, 0x20, 0x20, 0x70,
      0xF0, 0x10, 0xF0, 0x80, 0xF0,   0xF0, 0x10, 0xF0, 0x10, 0xF0] : List Byte) ++
     ([0x90, 0x90, 0xF0, 0x10, 0x10,   0xF0, 0x80, 0xF0, 0x10, 0xF0,
      0xF0, 0x80, 0xF0, 0x90, 0xF0,   0xF0, 0x10, 0x20, 0x40, 0x40] : List Byte) ++
     ([0xF0, 0x90, 0xF0, 0x90, 0xF0,   0xF0, 0x90, 0xF0, 0x10, 0xF0,
      0xF0, 0x90, 0xF0, 0x90, 0x90,   0xE0, 0x90, 0xE0, 0x90, 0xE0] : List Byte) ++
     ([0xF0, 0x80, 0x80, 0x80, 0xF0,   0xE0, 0x90, 0x90, 0x90, 0xE0,
      0xF0, 0x80, 0xF0, 0x80, 0xF0,   0xF0, 0x80, 0xF0, 0x80, 0x80] : List Byte)).toArray, rfl⟩

/-- `Draw()` (R150): the byte the `n`-th execution of random-and draws. A FREE VALUE: it has no body, so nothing is
known of it and every claim holds for every sequence of draws (D22). Safe (assumption 2). -/
opaque Config.draw : Nat → Byte

end Sys2Proof
end

