-- ==== Sys2Proof/Syntax.lean ====
section
/-! DEFINITION. The instructions: one constructor per row of spec/opcode_table.json, in the table's order (R2, R75),
and the fields of an instruction word (R10, R71). Every operand has the type of its field, so an instruction can hold
exactly the values its encoding admits (R72, R78). -/

namespace Sys2Proof

/-- The fields the decoder produces for every word (R10, R71): plain data, which `Fields.wellFormed` holds to agree. -/
structure Fields where
  /-- OP = w[15:12] -/
  op  : Nibble
  /-- X = w[11:8] -/
  x   : Nibble
  /-- Y = w[7:4] -/
  y   : Nibble
  /-- N = w[3:0] -/
  n   : Nibble
  /-- NN = w[7:0] -/
  nn  : Byte
  /-- NNN = w[11:0] -/
  nnn : Addr12
  deriving DecidableEq, Repr

/-- The instruction set (R75). Operands are named as the spec names the fields: `x` and `y` are register indices,
`n` a count, `nn` the 8-bit immediate, `nnn` the 12-bit address. -/
inductive Instr where
  /-- 0000, clear-screen (R101) -/
  | cls0000
  /-- 00E0, clear-screen (R100) -/
  | cls00E0
  /-- 00EE, return-from-subroutine (R110) -/
  | ret
  /-- 1NNN, jump-absolute (R111) -/
  | jp (nnn : Addr12)
  /-- 2NNN, call-subroutine (R112) -/
  | call (nnn : Addr12)
  /-- 3XNN, skip-if-equal-imm (R113) -/
  | seImm (x : RegIdx) (nn : Byte)
  /-- 4XNN, skip-if-not-equal-imm (R114) -/
  | sneImm (x : RegIdx) (nn : Byte)
  /-- 5XY0, skip-if-registers-equal (R115) -/
  | seReg (x y : RegIdx)
  /-- 6XNN, load-immediate (R130) -/
  | ldImm (x : RegIdx) (nn : Byte)
  /-- 7XNN, add-immediate (R131) -/
  | addImm (x : RegIdx) (nn : Byte)
  /-- 8XY0, move (R132) -/
  | ldReg (x y : RegIdx)
  /-- 8XY1, or (R133) -/
  | orReg (x y : RegIdx)
  /-- 8XY2, and (R134) -/
  | andReg (x y : RegIdx)
  /-- 8XY3, xor (R135) -/
  | xorReg (x y : RegIdx)
  /-- 8XY4, add-with-carry (R136) -/
  | addReg (x y : RegIdx)
  /-- 8XY5, sub-with-borrow (R137) -/
  | subReg (x y : RegIdx)
  /-- 8XY6, shift-right (R138); `y` is encoded and ignored (D3) -/
  | shr (x y : RegIdx)
  /-- 8XY7, sub-reverse-with-borrow (R139) -/
  | subn (x y : RegIdx)
  /-- 8XYE, shift-left (R140); `y` is encoded and ignored (D3) -/
  | shl (x y : RegIdx)
  /-- 9XY0, skip-if-registers-not-equal (R116) -/
  | sneReg (x y : RegIdx)
  /-- ANNN, load-index (R160) -/
  | ldI (nnn : Addr12)
  /-- BNNN, jump-indexed (R117) -/
  | jpV0 (nnn : Addr12)
  /-- CXNN, random-and (R141) -/
  | rnd (x : RegIdx) (nn : Byte)
  /-- DXYN, draw-sprite (R102); `n` is the row count 0 to 15 -/
  | drw (x y : RegIdx) (n : Nibble)
  /-- EX9E, skip-if-key-pressed (R180) -/
  | skp (x : RegIdx)
  /-- EXA1, skip-if-key-not-pressed (R181) -/
  | sknp (x : RegIdx)
  /-- FX07, read-delay-timer (R182) -/
  | ldVxDt (x : RegIdx)
  /-- FX0A, wait-for-key (R183) -/
  | ldVxK (x : RegIdx)
  /-- FX15, write-delay-timer (R184) -/
  | ldDtVx (x : RegIdx)
  /-- FX18, write-sound-timer (R185) -/
  | ldStVx (x : RegIdx)
  /-- FX1E, add-to-index (R161) -/
  | addI (x : RegIdx)
  /-- FX29, load-font-address (R162) -/
  | ldF (x : RegIdx)
  /-- FX33, store-binary-coded-decimal (R163) -/
  | ldB (x : RegIdx)
  /-- FX55, store-registers-to-memory (R164); `x` is also the inclusive count bound (R72) -/
  | ldMemVx (x : RegIdx)
  /-- FX65, load-registers-from-memory (R165); `x` is also the inclusive count bound (R72) -/
  | ldVxMem (x : RegIdx)
  deriving DecidableEq, Repr

end Sys2Proof
end

