-- ==== Sys2Proof/WellFormed.lean ====
section
/-! DEFINITION. The well-formedness of what enters the model as plain data: the fields of a word (R71), an instruction
word (R77: the legal words, listed by number and independently of the decoder's table) and a ROM image (R221).
An `Instr` needs no check of its own: the type of each operand is its field's range (R72), and every value of every
field is admitted (R78), so an ill-formed `Instr` cannot be written. -/

namespace Sys2Proof

/-- The overlapping fields of R71 agree: NN is Y and N together, NNN is X, Y and N together. -/
def Fields.wellFormed (f : Fields) : Bool :=
  f.nn = f.y ++ f.n && f.nnn = f.x ++ f.y ++ f.n

/-- The legal words: those R77's table of illegal words leaves out, group by group. -/
def Word.legal (w : Word) : Bool :=
  let v := w.toNat
  match v / 4096 with
  | 0x0 => v == 0x0000 || v == 0x00E0 || v == 0x00EE
  | 0x5 => v % 16 == 0
  | 0x8 => decide (v % 16 ≤ 7) || v % 16 == 0xE
  | 0x9 => v % 16 == 0
  | 0xE => v % 256 == 0x9E || v % 256 == 0xA1
  | 0xF => [0x07, 0x0A, 0x15, 0x18, 0x1E, 0x29, 0x33, 0x55, 0x65].contains (v % 256)
  | _ => true

/-- A byte sequence `load_rom` accepts: at most 3584 bytes (R221). -/
def romFits (bytes : List Byte) : Bool := decide (bytes.length ≤ Config.romMax)

end Sys2Proof
end

