-- ==== Sys2Proof/Decode.lean ====
section
/-! DEFINITION. Decoding (R70 to R82): the fields of a word, the table of R75 as 35 rows in its order, the decoder
that takes the first row a word matches, and the encoder written from the same patterns. -/

namespace Sys2Proof

/-- The fields of a word (R10, R71), a function with no error conditions (R74). -/
def fieldsOf (w : Word) : Fields where
  op  := w.extractLsb' 12 4
  x   := w.extractLsb' 8 4
  y   := w.extractLsb' 4 4
  n   := w.extractLsb' 0 4
  nn  := w.extractLsb' 0 8
  nnn := w.extractLsb' 0 12

/-- A nibble as the register index it names (R72). -/
def Nibble.reg (n : Nibble) : RegIdx := n.toFin

/-- A register index as the nibble that names it. -/
def regNibble (r : RegIdx) : Nibble := BitVec.ofFin r

/-- One row of R75: the four nibbles of its pattern, first to fourth (`none` is `_`, any nibble), and the
instruction its handler runs with the word's fields. -/
structure Row where
  p1 : Option Nibble
  p2 : Option Nibble
  p3 : Option Nibble
  p4 : Option Nibble
  build : Fields → Instr

/-- A nibble matches a pattern's nibble. -/
def nibbleFits (p : Option Nibble) (n : Nibble) : Bool :=
  match p with
  | none => true
  | some q => q == n

/-- The fields match the row's pattern. -/
def rowFits (r : Row) (f : Fields) : Bool :=
  nibbleFits r.p1 f.op && nibbleFits r.p2 f.x && nibbleFits r.p3 f.y && nibbleFits r.p4 f.n

/-- Rows 1 to 10 of R75. -/
def rowsControl : List Row :=
  [ ⟨some 0x0, some 0x0, some 0x0, some 0x0, fun _ => .cls0000⟩,
    ⟨some 0x0, some 0x0, some 0xE, some 0x0, fun _ => .cls00E0⟩,
    ⟨some 0x0, some 0x0, some 0xE, some 0xE, fun _ => .ret⟩,
    ⟨some 0x1, none, none, none, fun f => .jp f.nnn⟩,
    ⟨some 0x2, none, none, none, fun f => .call f.nnn⟩,
    ⟨some 0x3, none, none, none, fun f => .seImm f.x.reg f.nn⟩,
    ⟨some 0x4, none, none, none, fun f => .sneImm f.x.reg f.nn⟩,
    ⟨some 0x5, none, none, some 0x0, fun f => .seReg f.x.reg f.y.reg⟩,
    ⟨some 0x6, none, none, none, fun f => .ldImm f.x.reg f.nn⟩,
    ⟨some 0x7, none, none, none, fun f => .addImm f.x.reg f.nn⟩ ]

/-- Rows 11 to 19 of R75: the 8XY_ group. -/
def rowsAlu : List Row :=
  [ ⟨some 0x8, none, none, some 0x0, fun f => .ldReg f.x.reg f.y.reg⟩,
    ⟨some 0x8, none, none, some 0x1, fun f => .orReg f.x.reg f.y.reg⟩,
    ⟨some 0x8, none, none, some 0x2, fun f => .andReg f.x.reg f.y.reg⟩,
    ⟨some 0x8, none, none, some 0x3, fun f => .xorReg f.x.reg f.y.reg⟩,
    ⟨some 0x8, none, none, some 0x4, fun f => .addReg f.x.reg f.y.reg⟩,
    ⟨some 0x8, none, none, some 0x5, fun f => .subReg f.x.reg f.y.reg⟩,
    ⟨some 0x8, none, none, some 0x6, fun f => .shr f.x.reg f.y.reg⟩,
    ⟨some 0x8, none, none, some 0x7, fun f => .subn f.x.reg f.y.reg⟩,
    ⟨some 0x8, none, none, some 0xE, fun f => .shl f.x.reg f.y.reg⟩ ]

/-- Rows 20 to 26 of R75. -/
def rowsMiddle : List Row :=
  [ ⟨some 0x9, none, none, some 0x0, fun f => .sneReg f.x.reg f.y.reg⟩,
    ⟨some 0xA, none, none, none, fun f => .ldI f.nnn⟩,
    ⟨some 0xB, none, none, none, fun f => .jpV0 f.nnn⟩,
    ⟨some 0xC, none, none, none, fun f => .rnd f.x.reg f.nn⟩,
    ⟨some 0xD, none, none, none, fun f => .drw f.x.reg f.y.reg f.n⟩,
    ⟨some 0xE, none, some 0x9, some 0xE, fun f => .skp f.x.reg⟩,
    ⟨some 0xE, none, some 0xA, some 0x1, fun f => .sknp f.x.reg⟩ ]

/-- Rows 27 to 35 of R75: the F group. -/
def rowsMisc : List Row :=
  [ ⟨some 0xF, none, some 0x0, some 0x7, fun f => .ldVxDt f.x.reg⟩,
    ⟨some 0xF, none, some 0x0, some 0xA, fun f => .ldVxK f.x.reg⟩,
    ⟨some 0xF, none, some 0x1, some 0x5, fun f => .ldDtVx f.x.reg⟩,
    ⟨some 0xF, none, some 0x1, some 0x8, fun f => .ldStVx f.x.reg⟩,
    ⟨some 0xF, none, some 0x1, some 0xE, fun f => .addI f.x.reg⟩,
    ⟨some 0xF, none, some 0x2, some 0x9, fun f => .ldF f.x.reg⟩,
    ⟨some 0xF, none, some 0x3, some 0x3, fun f => .ldB f.x.reg⟩,
    ⟨some 0xF, none, some 0x5, some 0x5, fun f => .ldMemVx f.x.reg⟩,
    ⟨some 0xF, none, some 0x6, some 0x5, fun f => .ldVxMem f.x.reg⟩ ]

/-- The decode table of R75, in its order. -/
def decodeTable : List Row := rowsControl ++ rowsAlu ++ rowsMiddle ++ rowsMisc

/-- The instruction the first fitting row of `rows` gives ("first match wins", R75). -/
def decodeWith (rows : List Row) (w : Word) : Option Instr :=
  (rows.find? (fun r => rowFits r (fieldsOf w))).map (fun r => r.build (fieldsOf w))

/-- The instruction a word spells; `none` exactly for a word that matches no row, an illegal word (R77). -/
def decode (w : Word) : Option Instr := decodeWith decodeTable w

/-- Why bytes spell no instruction. -/
inductive DecodeReject where
  /-- Fewer than the 2 bytes every instruction has (R70, R82). -/
  | truncated
  /-- The word matches no pattern of R75 (R77). -/
  | illegalWord (w : Word)
  deriving DecidableEq, Repr

/-- Decoding bytes as they lie in memory, the byte at the lower address first (R70): the instruction and the bytes
after it. Total on any bytes. -/
def decodeBytes (bytes : List Byte) : Except DecodeReject (Instr × List Byte) :=
  match bytes with
  | hi :: lo :: rest =>
    match decode (Word.ofBytes hi lo) with
    | some i => .ok (i, rest)
    | none => .error (.illegalWord (Word.ofBytes hi lo))
  | _ => .error .truncated

/-- The word of an instruction, from the patterns of R75. -/
def encode (i : Instr) : Word :=
  match i with
  | .cls0000 => 0x0000#16
  | .cls00E0 => 0x00E0#16
  | .ret => 0x00EE#16
  | .jp nnn => 0x1#4 ++ nnn
  | .call nnn => 0x2#4 ++ nnn
  | .seImm x nn => 0x3#4 ++ regNibble x ++ nn
  | .sneImm x nn => 0x4#4 ++ regNibble x ++ nn
  | .seReg x y => 0x5#4 ++ regNibble x ++ regNibble y ++ 0x0#4
  | .ldImm x nn => 0x6#4 ++ regNibble x ++ nn
  | .addImm x nn => 0x7#4 ++ regNibble x ++ nn
  | .ldReg x y => 0x8#4 ++ regNibble x ++ regNibble y ++ 0x0#4
  | .orReg x y => 0x8#4 ++ regNibble x ++ regNibble y ++ 0x1#4
  | .andReg x y => 0x8#4 ++ regNibble x ++ regNibble y ++ 0x2#4
  | .xorReg x y => 0x8#4 ++ regNibble x ++ regNibble y ++ 0x3#4
  | .addReg x y => 0x8#4 ++ regNibble x ++ regNibble y ++ 0x4#4
  | .subReg x y => 0x8#4 ++ regNibble x ++ regNibble y ++ 0x5#4
  | .shr x y => 0x8#4 ++ regNibble x ++ regNibble y ++ 0x6#4
  | .subn x y => 0x8#4 ++ regNibble x ++ regNibble y ++ 0x7#4
  | .shl x y => 0x8#4 ++ regNibble x ++ regNibble y ++ 0xE#4
  | .sneReg x y => 0x9#4 ++ regNibble x ++ regNibble y ++ 0x0#4
  | .ldI nnn => 0xA#4 ++ nnn
  | .jpV0 nnn => 0xB#4 ++ nnn
  | .rnd x nn => 0xC#4 ++ regNibble x ++ nn
  | .drw x y n => 0xD#4 ++ regNibble x ++ regNibble y ++ n
  | .skp x => 0xE#4 ++ regNibble x ++ 0x9E#8
  | .sknp x => 0xE#4 ++ regNibble x ++ 0xA1#8
  | .ldVxDt x => 0xF#4 ++ regNibble x ++ 0x07#8
  | .ldVxK x => 0xF#4 ++ regNibble x ++ 0x0A#8
  | .ldDtVx x => 0xF#4 ++ regNibble x ++ 0x15#8
  | .ldStVx x => 0xF#4 ++ regNibble x ++ 0x18#8
  | .addI x => 0xF#4 ++ regNibble x ++ 0x1E#8
  | .ldF x => 0xF#4 ++ regNibble x ++ 0x29#8
  | .ldB x => 0xF#4 ++ regNibble x ++ 0x33#8
  | .ldMemVx x => 0xF#4 ++ regNibble x ++ 0x55#8
  | .ldVxMem x => 0xF#4 ++ regNibble x ++ 0x65#8

/-- The instruction word whose bits are `w`, numbered as spec/opcode_table.json numbers them (one 16-bit word, bit 0
its least significant bit); bits at `nbits` and above are 0. -/
def tableWord (nbits w : Nat) : Word := BitVec.ofNat 16 (w % 2 ^ nbits)

/-- What the decoder reads from that word's two bytes as memory holds them, high byte first (R53). -/
def decodeTableWord (nbits w : Nat) : Option Instr :=
  match decodeBytes [(tableWord nbits w).hi, (tableWord nbits w).lo] with
  | .ok (i, _) => some i
  | .error _ => none

end Sys2Proof
end

