-- ==== Sys2Proof/Machine/State.lean ====
section
/-! DEFINITION. Everything the spec gives the machine (R1, R20 to R42), as plain data, and its state after reset (R241). -/

namespace Sys2Proof.Machine

/-- The fault kinds of R200, each with the information its fault records. -/
inductive FaultKind where
  /-- code 1: the fetched word matches no pattern (R77); any step -/
  | illegalInstruction (word : Word)
  /-- code 2: a push with SP = 16 (R28); 2NNN -/
  | stackOverflow
  /-- code 3: a pop with SP = 0 (R29); 00EE -/
  | stackUnderflow
  /-- code 4: a byte address above 4095, the lowest the access needed (R54); the fetch, DXYN, FX33, FX55, FX65 -/
  | memoryOutOfRange (address : Nat)
  /-- code 5: a key index V[X] above 15 (R186); EX9E, EXA1 -/
  | keyIndexOutOfRange (value : Byte)
  deriving DecidableEq, Repr

/-- The fault record `Faulted(kind, addr, info)` of R40: the kind with its info, and the address of the instruction
whose step faulted. -/
structure FaultRecord where
  kind : FaultKind
  addr : Word
  deriving DecidableEq, Repr

/-- STATUS (R40). -/
inductive Status where
  | running
  | faulted (f : FaultRecord)
  deriving DecidableEq, Repr

/-- Memory (R50): (address, byte) cells, addresses strictly rising, no cell equal to what an unlisted address reads as
(`Memory.resetByte`). -/
abbrev Memory := List Host.Cell

/-- The display buffer (R34): 32 rows of 64 cells, `true` = ON. Row y, cell x is DISP[x][y], the cell of linear
index x + 64·y. -/
abbrev Display := Vector (Vector Bool 64) 32

/-- The key vector (R35), `true` = held. -/
abbrev Keys := Vector Bool 16

/-- The machine state (R1, R8). -/
structure State where
  /-- V0 to VF (R20) -/
  v : Vector Byte 16
  /-- I (R26) -/
  i : Word
  /-- PC (R23) -/
  pc : Word
  /-- S[0] to S[15] (R27) -/
  stack : Vector Word 16
  /-- SP, 0 to 16: the entries in use (R27) -/
  sp : Fin 17
  /-- DT, the delay timer (R30) -/
  dt : Byte
  /-- ST, the sound timer (R31) -/
  st : Byte
  /-- the 4096 bytes of memory (R32) -/
  mem : Memory
  /-- DISP (R34) -/
  disp : Display
  /-- KEY (R35) -/
  key : Keys
  /-- STATUS (R40) -/
  status : Status
  /-- the model's own field: the parameter FONT of this machine (R6, R33), from which construction and reset install
  bytes 0 to 79; no step and no host operation changes it (assumption 1) -/
  font : Font
  /-- the model's own field: how many bytes random-and has drawn, the argument of the free value `Config.draw`
  (assumption 2) -/
  draws : Nat
  deriving DecidableEq, Repr

/-- The reasons a step could stop with no next state: NONE. Every fault of this core is the spec's own (R200), whose
whole effect R201 and R206 give: a next state with STATUS = Faulted. Safe: no step stops (spec/93: "No step of the
model is stuck"). -/
inductive Fault where
  deriving DecidableEq, Repr

/-- The reasons a step could refuse an instruction. -/
inductive Refusal where
  /-- An instruction with no meaning yet, by its mnemonic; raised only by an arm of `exec`, and no arm raises it.
  Safe: it would stop where the hardware goes on. -/
  | notModelled (mnemonic : String)
  deriving DecidableEq, Repr

/-- The outcome of an instruction or a step. -/
abbrev Result := Host.Outcome State Fault Refusal

/-- The state `construct` builds from the parameter FONT (R240, R241): memory lists nothing, since an unlisted
address reads as the reset contents. DESIGN CHOICE: the draw counter, the model's own field, starts at 0
(assumption 2). -/
def State.construct (font : Font) : State where
  v := Vector.replicate 16 0
  i := 0
  pc := BitVec.ofNat 16 Config.progBase
  stack := Vector.replicate 16 0
  sp := 0
  dt := 0
  st := 0
  mem := []
  disp := Vector.replicate 32 (Vector.replicate 64 false)
  key := Vector.replicate 16 false
  status := .running
  font := font
  draws := 0

/-- The machine right after reset (R241), with R33's default font. -/
def State.reset : State := State.construct Config.defaultFont

end Sys2Proof.Machine
end

