-- ==== Sys2Proof/Machine/Ops.lean ====
section
/-! DEFINITION. The named operations over the state: memory (R50 to R57), registers (R20), the program counter (R25),
the return-address stack (R28, R29), the display cells (R34), the fetch (R80, R81), raising a fault (R201) and the
reset that ends it (R202, R241). -/

namespace Sys2Proof.Machine

/-! Memory. -/

/-- What address `a` reads as when memory lists no cell for it: the reset contents, the font at 0 to 79 and 0
elsewhere (R32, R241). -/
def Memory.resetByte (font : Font) (a : Nat) : Byte :=
  if h : a < Config.fontSize then font[a] else 0

/-- The byte at address `a` (R9); callers have checked a ≤ 4095. -/
def Memory.read (font : Font) (m : Memory) (a : Nat) : Byte :=
  match m with
  | [] => Memory.resetByte font a
  | (b, v) :: rest => if b = a then v else Memory.read font rest a

/-- List the cell (a, v), in its place by address. -/
def Memory.put (m : Memory) (a : Nat) (v : Byte) : Memory :=
  match m with
  | [] => [(a, v)]
  | (b, u) :: rest =>
    if a < b then (a, v) :: (b, u) :: rest
    else if a = b then (a, v) :: rest
    else (b, u) :: Memory.put rest a v

/-- List no cell for `a`. -/
def Memory.erase (m : Memory) (a : Nat) : Memory := m.filter (fun c => c.1 != a)

/-- Write byte `v` at address `a` (R9), keeping the canonical form. Callers have checked a ≤ 4095; no address above
4095 exists (R50), and there nothing is written. -/
def Memory.write (font : Font) (m : Memory) (a : Nat) (v : Byte) : Memory :=
  if a < Config.memSize then
    if v = Memory.resetByte font a then Memory.erase m a else Memory.put m a v
  else m

/-- The canonical form: addresses strictly rise and are below 4096, and no cell repeats the reset contents. -/
def Memory.wf (font : Font) (m : Memory) : Bool :=
  match m with
  | [] => true
  | (a, v) :: rest =>
    decide (a < Config.memSize) && decide (v ≠ Memory.resetByte font a) &&
      rest.all (fun c => decide (a < c.1)) && Memory.wf font rest

/-- MemRead(a, 1) (R9, R52). -/
def State.readMem (s : State) (a : Nat) : Byte := Memory.read s.font s.mem a

/-- MemWrite(a, 1, v) (R9, R52). -/
def State.writeMem (s : State) (a : Nat) (v : Byte) : State := { s with mem := Memory.write s.font s.mem a v }

/-- `check(a, n)` of R54: the lowest of the n addresses from a on that is above 4095, if any. Addresses are natural
numbers and do not wrap. -/
def firstOutOfRange (a n : Nat) : Option Nat :=
  match n with
  | 0 => none
  | k + 1 => if a > 4095 then some a else firstOutOfRange (a + 1) k

/-! Registers. -/

/-- V[r] (R8). -/
def State.reg (s : State) (r : RegIdx) : Byte := s.v[r.val]

/-- V[r] <- b (R8). -/
def State.setReg (s : State) (r : RegIdx) (b : Byte) : State := { s with v := s.v.set r.val b }

/-- I <- w. -/
def State.setI (s : State) (w : Word) : State := { s with i := w }

/-- PC <- w. -/
def State.setPc (s : State) (w : Word) : State := { s with pc := w }

/-- DT <- b. -/
def State.setDt (s : State) (b : Byte) : State := { s with dt := b }

/-- ST <- b. -/
def State.setSt (s : State) (b : Byte) : State := { s with st := b }

/-- STATUS <- x. -/
def State.setStatus (s : State) (x : Status) : State := { s with status := x }

/-- DISP <- d. -/
def State.setDisp (s : State) (d : Display) : State := { s with disp := d }

/-- PC <- (PC + 2) mod 2^16: the fetch's advance and a skip's (R25, R80). -/
def State.advance (s : State) : State := s.setPc (s.pc + 2)

/-- A skip: PC advances a second time when the condition holds (R24). -/
def State.skipIf (s : State) (c : Bool) : State := if c then s.advance else s

/-- The draw of the next random byte (R150): the free value at the counter, and the counter advanced, so that every
execution draws afresh. -/
def State.drawByte (s : State) : Byte × State := (Config.draw s.draws, { s with draws := s.draws + 1 })

/-! The return-address stack. -/

/-- S[k]. -/
def State.entry (s : State) (k : Fin 16) : Word := s.stack[k.val]

/-- `push(v)` of R28: `none` when SP = 16, and nothing is pushed. -/
def State.push (s : State) (w : Word) : Option State :=
  if h : s.sp.val < 16 then
    some { s with stack := s.stack.set s.sp.val w, sp := ⟨s.sp.val + 1, by omega⟩ }
  else none

/-- `pop()` of R29: `none` when SP = 0. The popped entry keeps its value. -/
def State.pop (s : State) : Option (Word × State) :=
  if h : 0 < s.sp.val then
    some (s.stack[s.sp.val - 1], { s with sp := ⟨s.sp.val - 1, by omega⟩ })
  else none

/-! The display. -/

/-- DISP[x][y] (R34). -/
def Display.cell (d : Display) (x : Fin 64) (y : Fin 32) : Bool := (d[y.val])[x.val]

/-- DISP[x][y] <- not DISP[x][y]. -/
def Display.toggle (d : Display) (x : Fin 64) (y : Fin 32) : Display :=
  d.set y.val ((d[y.val]).set x.val (!Display.cell d x y))

/-- Every cell OFF. -/
def Display.off : Display := Vector.replicate 32 (Vector.replicate 64 false)

/-- The 2048 cells in linear order, x + 64·y (R34, R223). -/
def Display.linear (d : Display) : List Bool := (d.toList.map (fun row => row.toList)).flatten

/-! Faults. -/

/-- The numeric code of a fault kind (R200, D29). -/
def FaultKind.code (k : FaultKind) : Nat :=
  match k with
  | .illegalInstruction _ => 1
  | .stackOverflow => 2
  | .stackUnderflow => 3
  | .memoryOutOfRange _ => 4
  | .keyIndexOutOfRange _ => 5

/-- Take a fault at the instruction of address `a` (R201): PC is that address, the advance of the fetch undone, and
STATUS records the kind and the address; nothing else changes. -/
def State.takeFault (s : State) (a : Word) (k : FaultKind) : State :=
  (s.setPc a).setStatus (.faulted ⟨k, a⟩)

/-- `raise Fault(kind, info)` inside an instruction, where PC is A + 2 (R9, R11): the fault is taken at A = PC − 2. -/
def State.raise (s : State) (k : FaultKind) : Result := .next (s.takeFault (s.pc - 2) k)

/-- The reset operation (R241, R242), the one way out of a fault (R207): the just-constructed state. The font is the
machine's own and is reinstalled; the draw counter goes on, so that draws after a reset are fresh (assumption 2). -/
def State.hostReset (s : State) : State := { State.construct s.font with draws := s.draws }

/-- `check(a, n)` and then `k` (R54): an address above 4095 raises MemoryOutOfRange with the lowest such address
before anything is changed. -/
def State.checked (s : State) (a n : Nat) (k : Result) : Result :=
  match firstOutOfRange a n with
  | some bad => s.raise (.memoryOutOfRange bad)
  | none => k

/-! The fetch. -/

/-- The word at address `a`, high byte at the lower address (R53). -/
def State.wordAt (s : State) (a : Nat) : Word := Word.ofBytes (s.readMem a) (s.readMem (a + 1))

/-- The fetch at PC (R80, R81): the word, or the fault when a byte of it lies above 4095. -/
def State.fetch (s : State) : Except FaultKind Word :=
  match firstOutOfRange s.pc.toNat 2 with
  | some bad => .error (.memoryOutOfRange bad)
  | none => .ok (s.wordAt s.pc.toNat)

/-- Store a word at address `a`, high byte at the lower address. -/
def State.storeWord (s : State) (a : Nat) (w : Word) : State := (s.writeMem a w.hi).writeMem (a + 1) w.lo

end Sys2Proof.Machine
end

