-- ==== Sys2Proof/Machine/Alu.lean ====
section
/-! DEFINITION. The register and arithmetic instructions (spec/42_alu.md). Sources are read before any register is
written; additions and subtractions write V[X] first and VF second, shifts write VF first and shift V[X] as it then
stands (R146). -/

namespace Sys2Proof.Machine

/-- 6XNN (R130): V[X] <- NN. -/
def execLdImm (x : RegIdx) (nn : Byte) (s : State) : Result := .next (s.setReg x nn)

/-- 7XNN (R131): V[X] <- V[X] + NN mod 256, no flag. -/
def execAddImm (x : RegIdx) (nn : Byte) (s : State) : Result := .next (s.setReg x (s.reg x + nn))

/-- 8XY0 (R132): V[X] <- V[Y]. -/
def execLdReg (x y : RegIdx) (s : State) : Result := .next (s.setReg x (s.reg y))

/-- 8XY1 (R133): V[X] <- V[X] OR V[Y], no flag. -/
def execOrReg (x y : RegIdx) (s : State) : Result := .next (s.setReg x (s.reg x ||| s.reg y))

/-- 8XY2 (R134): V[X] <- V[X] AND V[Y], no flag. -/
def execAndReg (x y : RegIdx) (s : State) : Result := .next (s.setReg x (s.reg x &&& s.reg y))

/-- 8XY3 (R135): V[X] <- V[X] XOR V[Y], no flag. -/
def execXorReg (x y : RegIdx) (s : State) : Result := .next (s.setReg x (s.reg x ^^^ s.reg y))

/-- 8XY4 (R136): the sum to V[X], then the carry to VF. -/
def execAddReg (x y : RegIdx) (s : State) : Result :=
  .next ((s.setReg x (s.reg x + s.reg y)).setFlag (carryOut (s.reg x) (s.reg y)))

/-- 8XY5 (R137): the difference x − y to V[X], then not-borrow to VF. -/
def execSubReg (x y : RegIdx) (s : State) : Result :=
  .next ((s.setReg x (s.reg x - s.reg y)).setFlag (notBorrow (s.reg x) (s.reg y)))

/-- 8XY6 (R138): the old bit 0 to VF, then V[X], read again, shifted right; Y is ignored (D3, D4). -/
def execShr (x _y : RegIdx) (s : State) : Result :=
  let t := s.setFlag (lowBit (s.reg x))
  .next (t.setReg x (t.reg x >>> 1))

/-- 8XY7 (R139): the difference y − x to V[X], then not-borrow to VF. -/
def execSubn (x y : RegIdx) (s : State) : Result :=
  .next ((s.setReg x (s.reg y - s.reg x)).setFlag (notBorrow (s.reg y) (s.reg x)))

/-- 8XYE (R140): the old bit 7 to VF, then V[X], read again, shifted left; Y is ignored (D3, D4). -/
def execShl (x _y : RegIdx) (s : State) : Result :=
  let t := s.setFlag (highBit (s.reg x))
  .next (t.setReg x (t.reg x <<< 1))

/-- CXNN (R141): V[X] <- Draw() AND NN. -/
def execRnd (x : RegIdx) (nn : Byte) (s : State) : Result :=
  .next (s.drawByte.2.setReg x (s.drawByte.1 &&& nn))

end Sys2Proof.Machine
end

