-- ==== Sys2Proof/Machine/Operands.lean ====
section
/-! DEFINITION. The operand forms: key indices (R186), glyph addresses (R162), decimal digits (R163), jump targets
(R117), sprite coordinates and bits (R102, R103), the block of registers of FX55 and FX65 (R164, R165). -/

namespace Sys2Proof.Machine

/-- The key a register value selects; `none` above 15 (R186). -/
def keyIndex (b : Byte) : Option (Fin 16) := if h : b.toNat < 16 then some ⟨b.toNat, h⟩ else none

/-- KEY[k] = held. -/
def State.held (s : State) (k : Fin 16) : Bool := s.key[k.val]

/-- The least key held, if any (R183). -/
def State.firstHeld (s : State) : Option (Fin 16) := (List.finRange 16).find? (fun k => s.held k)

/-- The address of the glyph of a digit, 5·V[X], not masked (R162, D17). -/
def glyphAddress (b : Byte) : Word := 5 * b.zext

/-- The hundreds, tens and ones digits of a byte (R163). -/
def bcdHundreds (b : Byte) : Byte := BitVec.ofNat 8 (b.toNat / 100)
def bcdTens (b : Byte) : Byte := BitVec.ofNat 8 (b.toNat / 10 % 10)
def bcdOnes (b : Byte) : Byte := BitVec.ofNat 8 (b.toNat % 10)

/-- The target of jump-indexed, an unmasked 16-bit sum (R117, D31). -/
def jumpIndexedTarget (v0 : Byte) (nnn : Addr12) : Word := v0.zext + nnn.zext

/-- The column of bit `c` of a sprite row drawn at `x0`: (x0 + c) mod 64 (R102). -/
def column (x0 : Byte) (c : Nat) : Fin 64 := Fin.ofNat 64 (x0.toNat + c)

/-- The display row of sprite row `r` drawn at `y0`: (y0 + r) mod 32 (R102). -/
def displayRow (y0 : Byte) (r : Nat) : Fin 32 := Fin.ofNat 32 (y0.toNat + r)

/-- Column `c` of a sprite byte is its bit 7 − c (R103). -/
def spriteBit (b : Byte) (c : Nat) : Bool := b.getLsbD (7 - c)

/-- The display being drawn on, and whether a cell has gone from ON to OFF. -/
abbrev Canvas := Display × Bool

/-- Toggle one cell, noting a collision first (R102). -/
def drawCell (x : Fin 64) (y : Fin 32) (p : Canvas) : Canvas := (p.1.toggle x y, p.2 || p.1.cell x y)

/-- One sprite row, columns 0 to 7 (R102). -/
def drawRow (x0 : Byte) (y : Fin 32) (b : Byte) (p : Canvas) : Canvas :=
  (List.range 8).foldl (fun q c => if spriteBit b c then drawCell (column x0 c) y q else q) p

/-- The sprite's rows 0 to n − 1, row r being the byte at I + r (R102). -/
def State.drawSprite (s : State) (x0 y0 : Byte) (n : Nat) : Canvas :=
  (List.range n).foldl (fun q r => drawRow x0 (displayRow y0 r) (s.readMem (s.i.toNat + r)) q) (s.disp, false)

/-- MEM[I + k] <- V[k] for k = 0, …, n − 1 (R164). -/
def State.storeRegs (s : State) (n : Nat) : State :=
  (List.range n).foldl (fun t k => t.writeMem (s.i.toNat + k) (s.reg (Fin.ofNat 16 k))) s

/-- V[k] <- MEM[I + k] for k = 0, …, n − 1 (R165). -/
def State.loadRegs (s : State) (n : Nat) : State :=
  (List.range n).foldl (fun t k => t.setReg (Fin.ofNat 16 k) (s.readMem (s.i.toNat + k))) s

end Sys2Proof.Machine
end

