-- ==== Sys2Proof/Machine/ControlFlow.lean ====
section
/-! DEFINITION. The control transfer instructions (spec/41_control_flow.md). PC already is A + 2 in every meaning (R11). -/

namespace Sys2Proof.Machine

/-- 00EE (R110): PC <- pop(). -/
def execRet (s : State) : Result :=
  match s.pop with
  | some (target, t) => .next (t.setPc target)
  | none => s.raise .stackUnderflow

/-- 1NNN (R111): PC <- zext_16(NNN). -/
def execJp (nnn : Addr12) (s : State) : Result := .next (s.setPc nnn.zext)

/-- 2NNN (R112): push(PC), then PC <- zext_16(NNN). -/
def execCall (nnn : Addr12) (s : State) : Result :=
  match s.push s.pc with
  | some t => .next (t.setPc nnn.zext)
  | none => s.raise .stackOverflow

/-- 3XNN (R113): skip if V[X] = NN. -/
def execSeImm (x : RegIdx) (nn : Byte) (s : State) : Result := .next (s.skipIf (s.reg x == nn))

/-- 4XNN (R114): skip if V[X] ≠ NN. -/
def execSneImm (x : RegIdx) (nn : Byte) (s : State) : Result := .next (s.skipIf (s.reg x != nn))

/-- 5XY0 (R115): skip if V[X] = V[Y]. -/
def execSeReg (x y : RegIdx) (s : State) : Result := .next (s.skipIf (s.reg x == s.reg y))

/-- 9XY0 (R116): skip if V[X] ≠ V[Y]. -/
def execSneReg (x y : RegIdx) (s : State) : Result := .next (s.skipIf (s.reg x != s.reg y))

/-- BNNN (R117): PC <- V[0] + NNN, whatever the second nibble holds. -/
def execJpV0 (nnn : Addr12) (s : State) : Result := .next (s.setPc (jumpIndexedTarget (s.reg 0) nnn))

end Sys2Proof.Machine
end

