-- ==== Sys2Proof/Machine/Display.lean ====
section
/-! DEFINITION. The display instructions (spec/40_display.md). PC already is A + 2 in every meaning (R11). -/

namespace Sys2Proof.Machine

/-- 0000 (R101): clear-screen, as 00E0. -/
def execCls0000 (s : State) : Result := .next (s.setDisp Display.off)

/-- 00E0 (R100): every cell OFF. -/
def execCls00E0 (s : State) : Result := .next (s.setDisp Display.off)

/-- DXYN (R102): the coordinates are read before VF is written; with N = 0 nothing is checked or drawn and VF is 0. -/
def execDrw (x y : RegIdx) (n : Nibble) (s : State) : Result :=
  s.checked s.i.toNat n.toNat
    (let p := s.drawSprite (s.reg x) (s.reg y) n.toNat
     .next ((s.setDisp p.1).setFlag p.2))

end Sys2Proof.Machine
end

