-- ==== Sys2Proof/Machine/IndexMemory.lean ====
section
/-! DEFINITION. The index register and memory instructions (spec/43_index_memory.md). Every address is checked before
anything is written (R54), and no meaning here but ANNN, FX1E and FX29 changes I. -/

namespace Sys2Proof.Machine

/-- ANNN (R160): I <- zext_16(NNN). -/
def execLdI (nnn : Addr12) (s : State) : Result := .next (s.setI nnn.zext)

/-- FX1E (R161): I <- I + V[X] mod 2^16, no flag. -/
def execAddI (x : RegIdx) (s : State) : Result := .next (s.setI (s.i + (s.reg x).zext))

/-- FX29 (R162): I <- 5·V[X]. -/
def execLdF (x : RegIdx) (s : State) : Result := .next (s.setI (glyphAddress (s.reg x)))

/-- FX33 (R163): the decimal digits of V[X] to I, I + 1, I + 2. -/
def execLdB (x : RegIdx) (s : State) : Result :=
  s.checked s.i.toNat 3
    (.next (((s.writeMem s.i.toNat (bcdHundreds (s.reg x))).writeMem (s.i.toNat + 1) (bcdTens (s.reg x))).writeMem
      (s.i.toNat + 2) (bcdOnes (s.reg x))))

/-- FX55 (R164): V[0] to V[X] to memory from I on. -/
def execLdMemVx (x : RegIdx) (s : State) : Result :=
  s.checked s.i.toNat (x.val + 1) (.next (s.storeRegs (x.val + 1)))

/-- FX65 (R165): V[0] to V[X] from memory from I on. -/
def execLdVxMem (x : RegIdx) (s : State) : Result :=
  s.checked s.i.toNat (x.val + 1) (.next (s.loadRegs (x.val + 1)))

end Sys2Proof.Machine
end

