-- ==== Sys2Proof/Machine/KeysTimers.lean ====
section
/-! DEFINITION. The key and timer instructions (spec/44_keys_timers.md). PC already is A + 2 in every meaning (R11). -/

namespace Sys2Proof.Machine

/-- EX9E (R180): skip if KEY[V[X]] is held; V[X] above 15 faults (R186). -/
def execSkp (x : RegIdx) (s : State) : Result :=
  match keyIndex (s.reg x) with
  | some k => .next (s.skipIf (s.held k))
  | none => s.raise (.keyIndexOutOfRange (s.reg x))

/-- EXA1 (R181): skip if KEY[V[X]] is not held; V[X] above 15 faults (R186). -/
def execSknp (x : RegIdx) (s : State) : Result :=
  match keyIndex (s.reg x) with
  | some k => .next (s.skipIf (!s.held k))
  | none => s.raise (.keyIndexOutOfRange (s.reg x))

/-- FX07 (R182): V[X] <- DT. -/
def execLdVxDt (x : RegIdx) (s : State) : Result := .next (s.setReg x s.dt)

/-- FX0A (R183): the least key held to V[X]; with none held, PC goes back to this instruction. -/
def execLdVxK (x : RegIdx) (s : State) : Result :=
  match s.firstHeld with
  | some k => .next (s.setReg x (BitVec.ofNat 8 k.val))
  | none => .next (s.setPc (s.pc - 2))

/-- FX15 (R184): DT <- V[X]. -/
def execLdDtVx (x : RegIdx) (s : State) : Result := .next (s.setDt (s.reg x))

/-- FX18 (R185): ST <- V[X]. -/
def execLdStVx (x : RegIdx) (s : State) : Result := .next (s.setSt (s.reg x))

end Sys2Proof.Machine
end

