-- ==== Sys2Proof/Machine/Step.lean ====
section
/-! DEFINITION. One step (R80): fetch, advance, decode, execute. -/

namespace Sys2Proof.Machine

/-- One step (R80). A faulted core does nothing (R202). A fetch out of range faults before decoding (R81), an illegal
word before executing (R77), each at the address the fetch read and with the advance undone (R201). -/
def step (s : State) : Host.Outcome State Fault Refusal :=
  match s.status with
  | .faulted _ => .next s
  | .running =>
    match s.fetch with
    | .error k => .next (s.takeFault s.pc k)
    | .ok w =>
      match decode w with
      | none => .next (s.takeFault s.pc (.illegalInstruction w))
      | some i => exec i s.advance

/-- The state with the instruction word of opcode-table bits `w` stored at PC, where the next step fetches, and STATUS
Running, which the fetch needs. -/
def State.withFetchWord (s : State) (nbits w : Nat) : State :=
  (s.setStatus .running).storeWord s.pc.toNat (tableWord nbits w)

end Sys2Proof.Machine
end

