-- ==== Sys2Proof/Machine/Transactions.lean ====
section
/-! DEFINITION. The transactions of the core with its host (R210 to R213, R220 to R226). `construct` is `State.construct`
(R240); the others act on a core between `clock` calls (R224). -/

namespace Sys2Proof.Machine

/-- A timer's decrement, staying at 0 (R30, R211). -/
def towardZero (b : Byte) : Byte := if b = 0 then 0 else b - 1

/-- The timer tick: one decrement of each timer (R211). -/
def State.timerTick (s : State) : State := (s.setDt (towardZero s.dt)).setSt (towardZero s.st)

/-- `tone_active` (R38). -/
def State.toneActive (s : State) : Bool := s.st != 0

/-- `stop_tone` of the call whose timer tick acts on `s`: the tick takes ST from 1 to 0 (R38, R212). -/
def State.stopTone (s : State) : Bool := s.st == 1

/-- The result of `clock(n)` (R226). -/
inductive ClockReply where
  | ok (toneActive stopTone : Bool)
  | err (f : FaultRecord)
  deriving DecidableEq, Repr

/-- `clock(n)` (R210): n steps and then one timer tick, ended by the first fault, which is returned; on a faulted core
nothing changes (R213). -/
def clock (n : Nat) (s : State) : Host.Outcome (State × ClockReply) Fault Refusal :=
  match s.status with
  | .faulted f => .next (s, .err f)
  | .running =>
    match n with
    | 0 => .next (s.timerTick, .ok s.timerTick.toneActive s.stopTone)
    | k + 1 =>
      match step s with
      | .next t => clock k t
      | .fault r => .fault r
      | .refused r => .refused r

/-- The result of `load_rom` (R221). -/
inductive LoadReply where
  | ok
  | romTooLarge
  deriving DecidableEq, Repr

/-- The bytes copied to memory from address `a` on. -/
def State.copyBytes (s : State) (a : Nat) (bytes : List Byte) : State :=
  match bytes with
  | [] => s
  | b :: rest => State.copyBytes (s.writeMem a b) (a + 1) rest

/-- `load_rom(bytes)` (R221): copied to 512 on; more than 3584 bytes are refused and nothing is written. -/
def State.loadRom (s : State) (bytes : List Byte) : State × LoadReply :=
  if romFits bytes then (s.copyBytes Config.progBase bytes, .ok) else (s, .romTooLarge)

/-- `set_keys(k0..k15)` (R222). -/
def State.setKeys (s : State) (k : Keys) : State := { s with key := k }

/-- `read_display` (R223): the 2048 cells in linear order x + 64·y. -/
def State.readDisplay (s : State) : List Bool := s.disp.linear

/-- What the host sends (R220). -/
inductive Transaction where
  | reset
  | loadRom (bytes : List Byte)
  | setKeys (k : Keys)
  | readDisplay
  | clock (n : Nat)
  deriving DecidableEq, Repr

/-- What the host gets back (R220). -/
inductive Reply where
  | done
  | load (r : LoadReply)
  | display (cells : List Bool)
  | clock (r : ClockReply)
  deriving DecidableEq, Repr

/-- One transaction: the state after it and the reply (R220). -/
def transact (tr : Transaction) (s : State) : Host.Outcome (State × Reply) Fault Refusal :=
  match tr with
  | .reset => .next (s.hostReset, .done)
  | .loadRom bytes => .next ((s.loadRom bytes).1, .load (s.loadRom bytes).2)
  | .setKeys k => .next (s.setKeys k, .done)
  | .readDisplay => .next (s, .display s.readDisplay)
  | .clock n =>
    match Sys2Proof.Machine.clock n s with
    | .next (t, r) => .next (t, .clock r)
    | .fault r => .fault r
    | .refused r => .refused r

end Sys2Proof.Machine
end

