-- ==== Sys2Proof/Safety.lean ====
section
/-! DEFINITION. The terms claims use: the parts of the state and frames over them, what a fault leaves, the invariants
of the machine, what each instruction may write (R22, R24) and which faults it may raise (R203), a safe run. -/

namespace Sys2Proof.Machine

/-- The parts of the state, one for each thing that can change on its own. -/
inductive Part where
  | v (r : RegIdx)
  | i
  | pc
  | stack (k : Fin 16)
  | sp
  | dt
  | st
  | mem (a : Nat)
  | disp (x : Fin 64) (y : Fin 32)
  | key (k : Fin 16)
  | status
  | font
  | draws
  deriving DecidableEq, Repr

/-- Two states hold the same in a part; of memory, the same byte is read at the address. -/
def SameAt (s t : State) (p : Part) : Prop :=
  match p with
  | .v r => t.reg r = s.reg r
  | .i => t.i = s.i
  | .pc => t.pc = s.pc
  | .stack k => t.entry k = s.entry k
  | .sp => t.sp = s.sp
  | .dt => t.dt = s.dt
  | .st => t.st = s.st
  | .mem a => t.readMem a = s.readMem a
  | .disp x y => t.disp.cell x y = s.disp.cell x y
  | .key k => t.held k = s.held k
  | .status => t.status = s.status
  | .font => t.font = s.font
  | .draws => t.draws = s.draws

/-- The frame: every part outside `changed` holds in `t` what it holds in `s`. -/
def Frame (changed : Set Part) (s t : State) : Prop := ∀ p, p ∉ changed → SameAt s t p

/-- The bytes of memory at a to a + n − 1. -/
def memBlock (a n : Nat) : Set Part := {p | ∃ k, k < n ∧ p = .mem (a + k)}

/-- The cells of the display. -/
def displayCells : Set Part := {p | ∃ x y, p = .disp x y}

/-- `t` is `s` with the fault `k` taken at address `a` (R201): STATUS holds the record, PC is `a`, nothing else
changes. -/
def FaultedFrom (s t : State) (a : Word) (k : FaultKind) : Prop :=
  t.status = .faulted ⟨k, a⟩ ∧ t.pc = a ∧ Frame {.pc, .status} s t

/-- The lowest of the addresses from `a` on that is above 4095 (R54). -/
def lowestBad (a : Nat) : Nat := max a 4096

/-- The word is the instruction's encoding: the decoder reads it so, and the encoder writes it so. -/
def Encodes (w : Word) (i : Instr) : Prop := decode w = some i ∧ encode i = w

/-- The cell (cx, cy) lies under a set bit of the sprite of DXYN (R102, R103). -/
def Covered (s : State) (x y : RegIdx) (n : Nibble) (cx : Fin 64) (cy : Fin 32) : Prop :=
  ∃ r, r < n.toNat ∧ ∃ c, c < 8 ∧ cx.val = ((s.reg x).toNat + c) % 64 ∧ cy.val = ((s.reg y).toNat + r) % 32 ∧
    (s.readMem (s.i.toNat + r)).getLsbD (7 - c) = true

/-! Invariants. -/

/-- Memory is in its canonical form. -/
def MemoryCanonical (s : State) : Prop := Memory.wf s.font s.mem = true

/-- What a fault kind claims of the state it was taken in, so far as no host operation but reset can change it. -/
def causeHolds (s : State) (k : FaultKind) : Prop :=
  match k with
  | .illegalInstruction w => w.legal = false
  | .stackOverflow => s.sp.val = 16
  | .stackUnderflow => s.sp.val = 0
  | .memoryOutOfRange a => a > 4095
  | .keyIndexOutOfRange b => b.toNat > 15

/-- A recorded fault is true: its address is in PC (R206), and its cause holds (R200). -/
def RecordTrue (s : State) : Prop := ∀ f, s.status = .faulted f → s.pc = f.addr ∧ causeHolds s f.kind

/-- PC never exceeds 0x10FE, and no stack entry 0x1000 (R25, D11), so that PC never wraps. -/
def PcBounded (s : State) : Prop := s.pc.toNat ≤ 0x10FE ∧ ∀ k, (s.entry k).toNat ≤ 0x1000

/-- A core that has not faulted. -/
def Safe (s : State) : Prop := s.status = .running

/-- A `clock(n)` call with no fault: it replies Ok. -/
def SafeClock (n : Nat) (s : State) : Prop := ∃ t a b, clock n s = .next (t, .ok a b)

/-! What each instruction may write and raise. -/

/-- The parts an instruction may change when it does not fault, PC being A + 2 before it: the write column of R22 and
the rules of files 40 to 44, PC by R24. -/
def footprint (i : Instr) (s : State) : Set Part :=
  match i with
  | .cls0000 => displayCells
  | .cls00E0 => displayCells
  | .ret => {.pc, .sp}
  | .jp _ => {.pc}
  | .call _ => {.pc, .sp} ∪ {p | ∃ k : Fin 16, k.val = s.sp.val ∧ p = .stack k}
  | .seImm _ _ => {.pc}
  | .sneImm _ _ => {.pc}
  | .seReg _ _ => {.pc}
  | .ldImm x _ => {.v x}
  | .addImm x _ => {.v x}
  | .ldReg x _ => {.v x}
  | .orReg x _ => {.v x}
  | .andReg x _ => {.v x}
  | .xorReg x _ => {.v x}
  | .addReg x _ => {.v x, .v 15}
  | .subReg x _ => {.v x, .v 15}
  | .shr x _ => {.v x, .v 15}
  | .subn x _ => {.v x, .v 15}
  | .shl x _ => {.v x, .v 15}
  | .sneReg _ _ => {.pc}
  | .ldI _ => {.i}
  | .jpV0 _ => {.pc}
  | .rnd x _ => {.v x, .draws}
  | .drw _ _ _ => {.v 15} ∪ displayCells
  | .skp _ => {.pc}
  | .sknp _ => {.pc}
  | .ldVxDt x => {.v x}
  | .ldVxK x => {.v x, .pc}
  | .ldDtVx _ => {.dt}
  | .ldStVx _ => {.st}
  | .addI _ => {.i}
  | .ldF _ => {.i}
  | .ldB _ => memBlock s.i.toNat 3
  | .ldMemVx x => memBlock s.i.toNat (x.val + 1)
  | .ldVxMem x => {p | ∃ r : RegIdx, r.val ≤ x.val ∧ p = .v r}

/-- The faults an instruction itself can raise (R203); every other instruction never faults. -/
def mayRaise (i : Instr) (k : FaultKind) : Prop :=
  match i with
  | .call _ => k = .stackOverflow
  | .ret => k = .stackUnderflow
  | .drw _ _ n => 1 ≤ n.toNat ∧ ∃ a, k = .memoryOutOfRange a
  | .ldB _ => ∃ a, k = .memoryOutOfRange a
  | .ldMemVx _ => ∃ a, k = .memoryOutOfRange a
  | .ldVxMem _ => ∃ a, k = .memoryOutOfRange a
  | .skp _ => ∃ b, k = .keyIndexOutOfRange b
  | .sknp _ => ∃ b, k = .keyIndexOutOfRange b
  | .cls0000 | .cls00E0 | .jp _ | .seImm _ _ | .sneImm _ _ | .seReg _ _ | .ldImm _ _ | .addImm _ _ => False
  | .ldReg _ _ | .orReg _ _ | .andReg _ _ | .xorReg _ _ | .addReg _ _ | .subReg _ _ | .shr _ _ | .subn _ _ => False
  | .shl _ _ | .sneReg _ _ | .ldI _ | .jpV0 _ | .rnd _ _ | .ldVxDt _ | .ldVxK _ | .ldDtVx _ | .ldStVx _ => False
  | .addI _ | .ldF _ => False

/-- The instructions that write VF as a flag (R21). -/
def setsFlag (i : Instr) : Prop :=
  match i with
  | .addReg _ _ | .subReg _ _ | .shr _ _ | .subn _ _ | .shl _ _ | .drw _ _ _ => True
  | .cls0000 | .cls00E0 | .ret | .jp _ | .call _ | .seImm _ _ | .sneImm _ _ | .seReg _ _ | .ldImm _ _ => False
  | .addImm _ _ | .ldReg _ _ | .orReg _ _ | .andReg _ _ | .xorReg _ _ | .sneReg _ _ | .ldI _ | .jpV0 _ => False
  | .rnd _ _ | .skp _ | .sknp _ | .ldVxDt _ | .ldVxK _ | .ldDtVx _ | .ldStVx _ | .addI _ | .ldF _ => False
  | .ldB _ | .ldMemVx _ | .ldVxMem _ => False

/-- The instruction names register `r` as a destination (R22). -/
def namesDest (i : Instr) (r : RegIdx) : Prop :=
  match i with
  | .ldImm x _ | .addImm x _ | .rnd x _ | .ldVxDt x | .ldVxK x => r = x
  | .ldReg x _ | .orReg x _ | .andReg x _ | .xorReg x _ => r = x
  | .addReg x _ | .subReg x _ | .shr x _ | .subn x _ | .shl x _ => r = x
  | .ldVxMem x => r.val ≤ x.val
  | .cls0000 | .cls00E0 | .ret | .jp _ | .call _ | .seImm _ _ | .sneImm _ _ | .seReg _ _ | .sneReg _ _ => False
  | .ldI _ | .jpV0 _ | .drw _ _ _ | .skp _ | .sknp _ | .ldDtVx _ | .ldStVx _ | .addI _ | .ldF _ => False
  | .ldB _ | .ldMemVx _ => False

/-- The instructions that can leave PC at another value than A + 2 when they do not fault (R24). -/
def movesPc (i : Instr) : Prop :=
  match i with
  | .seImm _ _ | .sneImm _ _ | .seReg _ _ | .sneReg _ _ | .skp _ | .sknp _ => True
  | .jp _ | .call _ | .ret | .jpV0 _ | .ldVxK _ => True
  | .cls0000 | .cls00E0 | .ldImm _ _ | .addImm _ _ | .ldReg _ _ | .orReg _ _ | .andReg _ _ | .xorReg _ _ => False
  | .addReg _ _ | .subReg _ _ | .shr _ _ | .subn _ _ | .shl _ _ | .ldI _ | .rnd _ _ | .drw _ _ _ => False
  | .ldVxDt _ | .ldDtVx _ | .ldStVx _ | .addI _ | .ldF _ | .ldB _ | .ldMemVx _ | .ldVxMem _ => False

end Sys2Proof.Machine
end

