-- ==== Sys2Proof/Certificates/Slice0/Obligations.lean ====
section
/-! DEFINITION. The statements for the provers. In every statement about `exec`, PC already is A + 2, A the
instruction's address (R11), so that `Frame` without `.pc` says that PC ends as A + 2. Where a clause rests on a point
the spec marks as its own decision or inference, the docstring names it: "spec's choice D<n>" is row D<n> of
spec/92_eei_decisions.md, "spec's inference" a passage the rule marks [derived]. -/

open Sys2Proof
open Sys2Proof.Machine

/-! Encoding and decoding (spec/30_encoding.md). -/

/-- R10: the fields of a word are its bit slices; and the overlapping fields agree (R71). -/
def Obligations.FieldsAreBitSlices : Prop :=
  ∀ w : Word,
    (fieldsOf w).op.toNat = w.toNat / 4096 ∧ (fieldsOf w).x.toNat = w.toNat / 256 % 16 ∧
    (fieldsOf w).y.toNat = w.toNat / 16 % 16 ∧ (fieldsOf w).n.toNat = w.toNat % 16 ∧
    (fieldsOf w).nn.toNat = w.toNat % 256 ∧ (fieldsOf w).nnn.toNat = w.toNat % 4096 ∧
    (fieldsOf w).wellFormed = true

/-- One word of each group of R75, written out from the spec's patterns, and an illegal neighbour (L2-1). -/
def Obligations.SampleWordsDecode : Prop :=
  decode 0x0000 = some .cls0000 ∧ decode 0x00E0 = some .cls00E0 ∧ decode 0x00EE = some .ret ∧
  decode 0x2ABC = some (.call 0xABC) ∧ decode 0x3A12 = some (.seImm 0xA 0x12) ∧
  decode 0x8AB5 = some (.subReg 0xA 0xB) ∧ decode 0x8ABE = some (.shl 0xA 0xB) ∧
  decode 0xBABC = some (.jpV0 0xABC) ∧ decode 0xDAB5 = some (.drw 0xA 0xB 5) ∧
  decode 0xEAA1 = some (.sknp 0xA) ∧ decode 0xFA33 = some (.ldB 0xA) ∧ decode 0xFA65 = some (.ldVxMem 0xA) ∧
  decode 0x00E1 = none ∧ decode 0x0ABC = none ∧ decode 0x8AB8 = none ∧ decode 0xFA75 = none

/-- Every instruction, with every operand at every value its field admits, decodes from its own encoding. -/
def Obligations.DecodeOfEncode : Prop := ∀ i : Instr, decode (encode i) = some i

/-- A legal word is the encoding of the instruction it decodes to, so that no two legal words decode alike. R75 gives
the patterns; that the instruction keeps every bit of its word is the model's DESIGN CHOICE (log entry 8): the shifts
carry the Y they ignore (R78; spec's choice D3), and 0000 and 00E0 are two constructors for one operation (R2). -/
def Obligations.EncodeOfDecode : Prop := ∀ (w : Word) (i : Instr), decode w = some i → encode i = w

/-- The decoder rejects exactly the words of R77's table. -/
def Obligations.RejectedWordsAreIllegalWords : Prop := ∀ w : Word, decode w = none ↔ w.legal = false

/-- R76 (spec's inference from R75): the 35 patterns are pairwise disjoint, so that they may be tested in any order. -/
def Obligations.PatternsAreDisjoint : Prop :=
  decodeTable.length = 35 ∧
  decodeTable.Pairwise (fun a b => ∀ w : Word, ¬ (rowFits a (fieldsOf w) = true ∧ rowFits b (fieldsOf w) = true)) ∧
  ∀ rows : List Row, rows.Perm decodeTable → ∀ w : Word, decodeWith rows w = decode w

/-! The step and its faults (spec/30_encoding.md, spec/60_exceptions.md). -/

/-- R80: on a running core, when the two bytes at PC, high byte first, decode to an instruction, the step is that
instruction executed with PC advanced by 2. -/
def Obligations.StepRunsDecodedInstruction : Prop :=
  ∀ (s : State) (i : Instr), Safe s → s.pc.toNat + 1 ≤ 4095 →
    decode (s.readMem s.pc.toNat ++ s.readMem (s.pc.toNat + 1)) = some i →
    step s = exec i s.advance ∧ s.advance.pc.toNat = (s.pc.toNat + 2) % 65536 ∧ Frame {.pc} s s.advance

/-- R81 (spec's choices D12, D8): the step of a running core whose fetch needs a byte above 4095 faults at A, before
decoding, with the lowest such address. -/
def Obligations.FetchOutOfRangeFaults : Prop :=
  ∀ s : State, Safe s → s.pc.toNat + 1 > 4095 →
    ∃ t, step s = .next t ∧
      FaultedFrom s t s.pc (.memoryOutOfRange (if s.pc.toNat > 4095 then s.pc.toNat else s.pc.toNat + 1))

/-- R77 (spec's choices D7, D8): the step of a running core on an illegal word faults with that word. -/
def Obligations.IllegalWordFaults : Prop :=
  ∀ (s : State) (w : Word), Safe s → s.pc.toNat + 1 ≤ 4095 →
    w = s.readMem s.pc.toNat ++ s.readMem (s.pc.toNat + 1) → w.legal = false →
    ∃ t, step s = .next t ∧ FaultedFrom s t s.pc (.illegalInstruction w)

/-- R201 (spec's choice D8): a step that raises a fault changes nothing but STATUS: PC keeps the instruction's address,
which the record holds too; and the fault's cause (R200) is true. -/
def Obligations.FaultsArePrecise : Prop :=
  ∀ s t : State, Safe s → step s = .next t → ¬ Safe t →
    ∃ k, FaultedFrom s t s.pc k ∧ causeHolds s k

/-- Every state has a step, and every transaction of the host is answered: nothing is stuck (spec/93). -/
def Obligations.EveryStepAndTransactionAnswers : Prop :=
  (∀ s : State, ∃ t, step s = .next t) ∧
  (∀ (tr : Transaction) (s : State), ∃ t r, transact tr s = .next (t, r))

/-- R203 (spec's inference): the faults each instruction itself can raise, at its own address; the others never fault. -/
def Obligations.FaultsPerInstruction : Prop :=
  ∀ (i : Instr) (s t : State) (f : FaultRecord), Safe s → exec i s = .next t → t.status = .faulted f →
    mayRaise i f.kind ∧ f.addr = s.pc - 2

/-! Reset and the invariants (spec/70_reset_and_hazards.md, spec/10_state.md). -/

/-- R240, R241 (spec's choice D25 for the values the source does not name): construction and reset leave every piece of
state as the table says, whatever the font; the model's reset state is the one of the default font (D15, assumption 1).
The draw counter is the model's own and nothing is said of it. -/
def Obligations.ResetState : Prop :=
  (∀ (font : Font) (s : State), (s = State.construct font ∨ ∃ r : State, r.font = font ∧ s = r.hostReset) →
    (∀ r, s.reg r = 0) ∧ s.i = 0 ∧ s.pc.toNat = 512 ∧ s.sp.val = 0 ∧ (∀ k, s.entry k = 0) ∧ s.dt = 0 ∧ s.st = 0 ∧
    s.toneActive = false ∧ (∀ (a : Nat) (h : a < 80), s.readMem a = font[a]) ∧
    (∀ a, 80 ≤ a → a ≤ 4095 → s.readMem a = 0) ∧ (∀ x y, s.disp.cell x y = false) ∧
    (∀ k, s.held k = false) ∧ s.status = .running ∧ s.font = font) ∧
  State.reset = State.construct Config.defaultFont

/-- The three invariants hold after construction, whatever the font. -/
def Obligations.InvariantsHoldAfterConstruct : Prop :=
  ∀ font : Font, MemoryCanonical (State.construct font) ∧ RecordTrue (State.construct font) ∧
    PcBounded (State.construct font)

/-- Every step keeps memory in its canonical form: 4096 bytes, each listed at most once. -/
def Obligations.StepKeepsMemoryCanonical : Prop :=
  ∀ s t : State, MemoryCanonical s → step s = .next t → MemoryCanonical t

/-- Every step keeps the fault record true: its address in PC (R206), its cause holding (spec's choice D8). -/
def Obligations.StepKeepsRecordTrue : Prop :=
  ∀ s t : State, RecordTrue s → step s = .next t → RecordTrue t

/-- Every step keeps PC at most 0x10FE and stack entries at most 0x1000 (R25, spec's inference; spec's choice D11). -/
def Obligations.StepKeepsPcBounded : Prop :=
  ∀ s t : State, PcBounded s → step s = .next t → PcBounded t

/-- Every transaction of the host (R220), `clock` (R210) among them, keeps each of the three invariants. Memory
(R50, R54): canonical, and a load stays within it (R221, spec's choice D28). The fault record (R200, R206; spec's choice
D8): true, and no transaction but reset moves PC or STATUS of a faulted core (spec's choices D9, D28). PC: at most
0x10FE (R25, spec's inference) and stack entries at most 0x1000 (spec's choice D11), as a load leaves PC and the stack
alone (D28) and a fault PC (D8). -/
def Obligations.TransactionsKeepInvariants : Prop :=
  ∀ (tr : Transaction) (s t : State) (r : Reply), transact tr s = .next (t, r) →
    (MemoryCanonical s → MemoryCanonical t) ∧ (RecordTrue s → RecordTrue t) ∧ (PcBounded s → PcBounded t)

/-- What a step can change, and by which instructions only, for each piece of state: V by the instructions that name
the register or set VF (R21, R22; spec's choices D2, D3, D32); PC is A + 2 but for the instructions of R24 (FX0A by
spec's choice D21) and for a core the step leaves faulted, whose PC stays (R201, R202, spec's choice D8); STATUS only by
a fault recorded at A (D8); DT and ST (R30, R31, R253), I (R26; spec's choice D20), memory (R50), the display (R34;
spec's choice D6 for 0000), the stack and SP (R27; spec's choice D11 for the popped entry) by the instructions named;
the keys never (R35). Of the model's own fields: the font never changes (log entry 1, DESIGN CHOICE; bytes 0 to 79 of
memory can, R57), the draw counter only by CXNN (R141; log entry 2, DESIGN CHOICE). -/
def Obligations.OnlyTheNamedInstructionsWrite : Prop :=
  ∀ (s t : State), step s = .next t →
    (∀ r, t.reg r ≠ s.reg r → ∃ i, decode (s.wordAt s.pc.toNat) = some i ∧ (namesDest i r ∨ (r = 15 ∧ setsFlag i))) ∧
    (t.pc ≠ s.pc + 2 → (¬ Safe t ∧ t.pc = s.pc) ∨ ∃ i, decode (s.wordAt s.pc.toNat) = some i ∧ movesPc i) ∧
    (t.status ≠ s.status → Safe s ∧ t.pc = s.pc ∧ ∃ k, t.status = .faulted ⟨k, s.pc⟩) ∧
    (∀ k, t.held k = s.held k) ∧ t.font = s.font ∧
    (t.dt ≠ s.dt → ∃ x, decode (s.wordAt s.pc.toNat) = some (.ldDtVx x)) ∧
    (t.st ≠ s.st → ∃ x, decode (s.wordAt s.pc.toNat) = some (.ldStVx x)) ∧
    (t.i ≠ s.i → (∃ nnn, decode (s.wordAt s.pc.toNat) = some (.ldI nnn)) ∨
      (∃ x, decode (s.wordAt s.pc.toNat) = some (.addI x)) ∨ (∃ x, decode (s.wordAt s.pc.toNat) = some (.ldF x))) ∧
    (∀ a, t.readMem a ≠ s.readMem a → (∃ x, decode (s.wordAt s.pc.toNat) = some (.ldB x)) ∨
      (∃ x, decode (s.wordAt s.pc.toNat) = some (.ldMemVx x))) ∧
    (∀ x y, t.disp.cell x y ≠ s.disp.cell x y → decode (s.wordAt s.pc.toNat) = some .cls0000 ∨
      decode (s.wordAt s.pc.toNat) = some .cls00E0 ∨
      (∃ vx vy n, decode (s.wordAt s.pc.toNat) = some (.drw vx vy n))) ∧
    (∀ k, t.entry k ≠ s.entry k → ∃ nnn, decode (s.wordAt s.pc.toNat) = some (.call nnn)) ∧
    (t.sp ≠ s.sp → decode (s.wordAt s.pc.toNat) = some .ret ∨
      ∃ nnn, decode (s.wordAt s.pc.toNat) = some (.call nnn)) ∧
    (t.draws ≠ s.draws → ∃ x nn, decode (s.wordAt s.pc.toNat) = some (.rnd x nn))

/-- The frame of every instruction: without a fault, it changes nothing outside its footprint: V (R22; spec's choices
D2, D3, D32), PC (R24; D21 for FX0A), I (R26; D20), the stack and SP (R27; D11 for the popped entry), DT and ST (R30,
R31), memory (R50), the display (R34; D6 for 0000). KEY (R35), STATUS and the font (log entry 1) are in no footprint, the
draw counter (log entry 2) in that of CXNN only (R141). -/
def Obligations.FrameOfEveryInstruction : Prop :=
  ∀ (i : Instr) (s t : State), exec i s = .next t → Safe t → Frame (footprint i s) s t

/-- R21 (its "exactly"): VF changes only by the six flag setters and by the instructions that name it as their destination. -/
def Obligations.OnlyFlagSettersWriteFlag : Prop :=
  ∀ (i : Instr) (s t : State), exec i s = .next t → t.reg 15 ≠ s.reg 15 → setsFlag i ∨ namesDest i 15

/-- R56, R59: memory holds what was last written, at every address of the space, and a write leaves every other
byte. -/
def Obligations.MemoryHoldsLastWrite : Prop :=
  ∀ (s : State) (a : Nat) (v : Byte),
    (a ≤ 4095 → (s.writeMem a v).readMem a = v) ∧ Frame {.mem a} s (s.writeMem a v) ∧
    (MemoryCanonical s → MemoryCanonical (s.writeMem a v))

/-! Display instructions (spec/40_display.md). -/

/-- R100 (spec's inference), R101 (spec's choice D6): both clear-screen words turn every cell OFF and change nothing else. -/
def Obligations.ClearScreen : Prop :=
  Encodes 0x0000 .cls0000 ∧ Encodes 0x00E0 .cls00E0 ∧
  ∀ (i : Instr) (s : State), (i = .cls0000 ∨ i = .cls00E0) →
    ∃ t, exec i s = .next t ∧ (∀ x y, t.disp.cell x y = false) ∧ Frame displayCells s t

/-- R102, R103 (spec's choices D18 for the bit order, D19 for the coordinates and N = 0, D12 for the bounds, D2
for Y, D8 for what the fault leaves): draw-sprite toggles exactly the cells under the sprite's set bits, wrapping at both
edges, and VF says whether one of them was ON. With N = 0 it runs whatever I is. -/
def Obligations.DrawSprite : Prop :=
  ∀ (x y : RegIdx) (n : Nibble),
    Encodes (0xD#4 ++ regNibble x ++ regNibble y ++ n) (.drw x y n) ∧
    ∀ s : State,
      ((n.toNat = 0 ∨ s.i.toNat + n.toNat ≤ 4096) →
        ∃ t, exec (.drw x y n) s = .next t ∧
          (∀ cx cy, t.disp.cell cx cy = true ↔ ¬ (s.disp.cell cx cy = true ↔ Covered s x y n cx cy)) ∧
          ((∃ cx cy, Covered s x y n cx cy ∧ s.disp.cell cx cy = true) → t.reg 15 = 1) ∧
          ((∀ cx cy, Covered s x y n cx cy → s.disp.cell cx cy = false) → t.reg 15 = 0) ∧
          Frame ({.v 15} ∪ displayCells) s t) ∧
      ((1 ≤ n.toNat ∧ s.i.toNat + n.toNat - 1 > 4095) →
        ∃ t, exec (.drw x y n) s = .next t ∧
          FaultedFrom s t (s.pc - 2) (.memoryOutOfRange (lowestBad s.i.toNat)))

/-- Drawing the same sprite twice at the same place restores the display (C10, L1-5), when VF is no coordinate; the
second draw reports a collision exactly when some cell was covered and turned ON by the first. -/
def Obligations.DrawTwiceRestoresDisplay : Prop :=
  ∀ (x y : RegIdx) (n : Nibble) (s : State), x ≠ 15 → y ≠ 15 → s.i.toNat + n.toNat ≤ 4096 →
    ∃ t u, exec (.drw x y n) s = .next t ∧ exec (.drw x y n) t = .next u ∧
      (∀ cx cy, u.disp.cell cx cy = s.disp.cell cx cy) ∧
      (u.reg 15 = 1 ↔ ∃ cx cy, Covered s x y n cx cy ∧ s.disp.cell cx cy = false) ∧
      Frame {.v 15} s u

/-! Control transfer instructions (spec/41_control_flow.md). -/

/-- R111 (spec's choice D13: NNN may be odd): jump-absolute. -/
def Obligations.JumpAbsolute : Prop :=
  ∀ nnn : Addr12, Encodes (0x1#4 ++ nnn) (.jp nnn) ∧
    ∀ s : State, ∃ t, exec (.jp nnn) s = .next t ∧ t.pc.toNat = nnn.toNat ∧ Frame {.pc} s t

/-- R112: the post-fetch PC is pushed and PC is NNN; with SP = 16 the call faults and pushes nothing (spec's choices
D10, D11, D8). -/
def Obligations.CallSubroutine : Prop :=
  ∀ nnn : Addr12, Encodes (0x2#4 ++ nnn) (.call nnn) ∧
    ∀ s : State,
      (∀ k : Fin 16, k.val = s.sp.val →
        ∃ t, exec (.call nnn) s = .next t ∧ t.entry k = s.pc ∧ t.sp.val = s.sp.val + 1 ∧ t.pc.toNat = nnn.toNat ∧
          Frame {.pc, .sp, .stack k} s t) ∧
      (s.sp.val = 16 → ∃ t, exec (.call nnn) s = .next t ∧ FaultedFrom s t (s.pc - 2) .stackOverflow)

/-- R110: PC is the popped entry, which keeps its value (spec's choice D11); with SP = 0 the return faults (spec's
choices D10, D8). -/
def Obligations.ReturnFromSubroutine : Prop :=
  Encodes 0x00EE .ret ∧
  ∀ s : State,
    (∀ k : Fin 16, k.val + 1 = s.sp.val →
      ∃ t, exec .ret s = .next t ∧ t.pc = s.entry k ∧ t.sp.val = k.val ∧ Frame {.pc, .sp} s t) ∧
    (s.sp.val = 0 → ∃ t, exec .ret s = .next t ∧ FaultedFrom s t (s.pc - 2) .stackUnderflow)

/-- A call and then a return, from wherever the subroutine ends, resume at the instruction after the call, for every
depth at which the call can push (L1-6). -/
def Obligations.CallThenReturn : Prop :=
  ∀ (nnn : Addr12) (s : State) (p : Word) (k : Fin 16), k.val = s.sp.val →
    ∃ t u, exec (.call nnn) s = .next t ∧ exec .ret (t.setPc p) = .next u ∧ u.pc = s.pc ∧ Frame {.stack k} s u

/-- R113, R114: the skips on an immediate advance PC by 2 more exactly when their condition holds, and change nothing
else. -/
def Obligations.SkipsOnImmediate : Prop :=
  ∀ (x : RegIdx) (nn : Byte),
    Encodes (0x3#4 ++ regNibble x ++ nn) (.seImm x nn) ∧ Encodes (0x4#4 ++ regNibble x ++ nn) (.sneImm x nn) ∧
    ∀ s : State,
      (∃ t, exec (.seImm x nn) s = .next t ∧ t.pc = (if s.reg x = nn then s.pc + 2 else s.pc) ∧ Frame {.pc} s t) ∧
      (∃ t, exec (.sneImm x nn) s = .next t ∧ t.pc = (if s.reg x = nn then s.pc else s.pc + 2) ∧ Frame {.pc} s t)

/-- R115, R116 (spec's choice D2 for the role of Y): the skips on two registers, as those on an immediate. -/
def Obligations.SkipsOnRegisters : Prop :=
  ∀ x y : RegIdx,
    Encodes (0x5#4 ++ regNibble x ++ regNibble y ++ 0x0#4) (.seReg x y) ∧
    Encodes (0x9#4 ++ regNibble x ++ regNibble y ++ 0x0#4) (.sneReg x y) ∧
    ∀ s : State,
      (∃ t, exec (.seReg x y) s = .next t ∧ t.pc = (if s.reg x = s.reg y then s.pc + 2 else s.pc) ∧
        Frame {.pc} s t) ∧
      (∃ t, exec (.sneReg x y) s = .next t ∧ t.pc = (if s.reg x = s.reg y then s.pc else s.pc + 2) ∧
        Frame {.pc} s t)

/-- R117 (spec's choice D31: no mask): PC is the sum of V[0] and NNN, whatever the second nibble holds. -/
def Obligations.JumpIndexed : Prop :=
  ∀ nnn : Addr12, Encodes (0xB#4 ++ nnn) (.jpV0 nnn) ∧
    ∀ s : State, ∃ t, exec (.jpV0 nnn) s = .next t ∧ t.pc.toNat = (s.reg 0).toNat + nnn.toNat ∧ Frame {.pc} s t

/-! Register and arithmetic instructions (spec/42_alu.md). -/

/-- R130: load-immediate. -/
def Obligations.LoadImmediate : Prop :=
  ∀ (x : RegIdx) (nn : Byte), Encodes (0x6#4 ++ regNibble x ++ nn) (.ldImm x nn) ∧
    ∀ s : State, ∃ t, exec (.ldImm x nn) s = .next t ∧ t.reg x = nn ∧ Frame {.v x} s t

/-- R132 (spec's choice D2 for the role of Y): move. -/
def Obligations.MoveRegister : Prop :=
  ∀ x y : RegIdx, Encodes (0x8#4 ++ regNibble x ++ regNibble y ++ 0x0#4) (.ldReg x y) ∧
    ∀ s : State, ∃ t, exec (.ldReg x y) s = .next t ∧ t.reg x = s.reg y ∧ Frame {.v x} s t

/-- R131: the sum modulo 256, no flag. -/
def Obligations.AddImmediate : Prop :=
  ∀ (x : RegIdx) (nn : Byte), Encodes (0x7#4 ++ regNibble x ++ nn) (.addImm x nn) ∧
    ∀ s : State, ∃ t, exec (.addImm x nn) s = .next t ∧
      (t.reg x).toNat = ((s.reg x).toNat + nn.toNat) % 256 ∧ Frame {.v x} s t

/-- R133, R134, R135: bit by bit; no flag is written (spec's choice D32); Y by spec's choice D2. -/
def Obligations.LogicInstructions : Prop :=
  ∀ x y : RegIdx,
    Encodes (0x8#4 ++ regNibble x ++ regNibble y ++ 0x1#4) (.orReg x y) ∧
    Encodes (0x8#4 ++ regNibble x ++ regNibble y ++ 0x2#4) (.andReg x y) ∧
    Encodes (0x8#4 ++ regNibble x ++ regNibble y ++ 0x3#4) (.xorReg x y) ∧
    ∀ s : State,
      (∃ t, exec (.orReg x y) s = .next t ∧ Frame {.v x} s t ∧
        ∀ b, (t.reg x).getLsbD b = ((s.reg x).getLsbD b || (s.reg y).getLsbD b)) ∧
      (∃ t, exec (.andReg x y) s = .next t ∧ Frame {.v x} s t ∧
        ∀ b, (t.reg x).getLsbD b = ((s.reg x).getLsbD b && (s.reg y).getLsbD b)) ∧
      (∃ t, exec (.xorReg x y) s = .next t ∧ Frame {.v x} s t ∧
        ∀ b, (t.reg x).getLsbD b = ((s.reg x).getLsbD b != (s.reg y).getLsbD b))

/-- R136: V[X] is the sum modulo 256 and VF the carry; with X = 15 VF ends as the carry
(spec's choice D5); Y by spec's choice D2. -/
def Obligations.AddWithCarry : Prop :=
  ∀ x y : RegIdx, Encodes (0x8#4 ++ regNibble x ++ regNibble y ++ 0x4#4) (.addReg x y) ∧
    ∀ s : State, ∃ t, exec (.addReg x y) s = .next t ∧
      (x ≠ 15 → (t.reg x).toNat = ((s.reg x).toNat + (s.reg y).toNat) % 256) ∧
      t.reg 15 = (if (s.reg x).toNat + (s.reg y).toNat > 255 then 1 else 0) ∧ Frame {.v x, .v 15} s t

/-- R137, R139: V[X] is the difference modulo 256 and VF says that no borrow occurred; with X = 15 VF ends as that
flag (spec's choice D5); Y by spec's choice D2. -/
def Obligations.Subtractions : Prop :=
  ∀ x y : RegIdx,
    Encodes (0x8#4 ++ regNibble x ++ regNibble y ++ 0x5#4) (.subReg x y) ∧
    Encodes (0x8#4 ++ regNibble x ++ regNibble y ++ 0x7#4) (.subn x y) ∧
    ∀ s : State,
      (∃ t, exec (.subReg x y) s = .next t ∧
        (x ≠ 15 → ((t.reg x).toNat : Int) = ((s.reg x).toNat - (s.reg y).toNat : Int) % 256) ∧
        t.reg 15 = (if (s.reg x).toNat ≥ (s.reg y).toNat then 1 else 0) ∧ Frame {.v x, .v 15} s t) ∧
      (∃ t, exec (.subn x y) s = .next t ∧
        (x ≠ 15 → ((t.reg x).toNat : Int) = ((s.reg y).toNat - (s.reg x).toNat : Int) % 256) ∧
        t.reg 15 = (if (s.reg y).toNat ≥ (s.reg x).toNat then 1 else 0) ∧ Frame {.v x, .v 15} s t)

/-- R138: VF is the old bit 0 and V[X] is halved, whatever Y names (spec's choice D3); with X = 15 the flag is shifted
and VF ends as 0 (spec's choice D4). -/
def Obligations.ShiftRight : Prop :=
  ∀ x y : RegIdx, Encodes (0x8#4 ++ regNibble x ++ regNibble y ++ 0x6#4) (.shr x y) ∧
    ∀ s : State, ∃ t, exec (.shr x y) s = .next t ∧
      (x ≠ 15 → (t.reg x).toNat = (s.reg x).toNat / 2 ∧ (t.reg 15).toNat = (s.reg x).toNat % 2) ∧
      (x = 15 → t.reg 15 = 0) ∧ Frame {.v x, .v 15} s t

/-- R140: VF is the old bit 7 and V[X] is doubled modulo 256, whatever Y names (spec's choice D3); with X = 15 the flag
is shifted and VF ends as 0 or 2 (spec's choice D4). -/
def Obligations.ShiftLeft : Prop :=
  ∀ x y : RegIdx, Encodes (0x8#4 ++ regNibble x ++ regNibble y ++ 0xE#4) (.shl x y) ∧
    ∀ s : State, ∃ t, exec (.shl x y) s = .next t ∧
      (x ≠ 15 → (t.reg x).toNat = (s.reg x).toNat * 2 % 256 ∧ (t.reg 15).toNat = (s.reg x).toNat / 128) ∧
      (x = 15 → (t.reg 15).toNat = 2 * ((s.reg 15).toNat / 128)) ∧ Frame {.v x, .v 15} s t

/-- R141, R150: V[X] is the drawn byte, whatever it is, AND NN, and the next draw is a fresh one. The draw is the free
value `Config.draw` (assumption 2): the statement holds for every sequence of draws. -/
def Obligations.RandomAnd : Prop :=
  ∀ (x : RegIdx) (nn : Byte), Encodes (0xC#4 ++ regNibble x ++ nn) (.rnd x nn) ∧
    ∀ s : State, ∃ t, exec (.rnd x nn) s = .next t ∧
      (∀ b, (t.reg x).getLsbD b = ((Config.draw s.draws).getLsbD b && nn.getLsbD b)) ∧
      t.draws = s.draws + 1 ∧ Frame {.v x, .draws} s t

/-! Index register and memory instructions (spec/43_index_memory.md). -/

/-- R160. -/
def Obligations.LoadIndex : Prop :=
  ∀ nnn : Addr12, Encodes (0xA#4 ++ nnn) (.ldI nnn) ∧
    ∀ s : State, ∃ t, exec (.ldI nnn) s = .next t ∧ t.i.toNat = nnn.toNat ∧ Frame {.i} s t

/-- R161: the sum modulo 2^16, no flag and no fault. -/
def Obligations.AddToIndex : Prop :=
  ∀ x : RegIdx, Encodes (0xF#4 ++ regNibble x ++ 0x1E#8) (.addI x) ∧
    ∀ s : State, ∃ t, exec (.addI x) s = .next t ∧
      t.i.toNat = (s.i.toNat + (s.reg x).toNat) % 65536 ∧ Frame {.i} s t

/-- R162 (spec's inference for digits 0 to 15, spec's choice D17 above): five times V[X], not masked. -/
def Obligations.LoadFontAddress : Prop :=
  ∀ x : RegIdx, Encodes (0xF#4 ++ regNibble x ++ 0x29#8) (.ldF x) ∧
    ∀ s : State, ∃ t, exec (.ldF x) s = .next t ∧ t.i.toNat = 5 * (s.reg x).toNat ∧ Frame {.i} s t

/-- R163: the three decimal digits at I, I + 1, I + 2, I unchanged; a byte above 4095 faults and nothing is written
(spec's choices D12, D8). -/
def Obligations.StoreBinaryCodedDecimal : Prop :=
  ∀ x : RegIdx, Encodes (0xF#4 ++ regNibble x ++ 0x33#8) (.ldB x) ∧
    ∀ s : State,
      (s.i.toNat + 2 ≤ 4095 →
        ∃ t, exec (.ldB x) s = .next t ∧
          (t.readMem s.i.toNat).toNat = (s.reg x).toNat / 100 ∧
          (t.readMem (s.i.toNat + 1)).toNat = (s.reg x).toNat / 10 % 10 ∧
          (t.readMem (s.i.toNat + 2)).toNat = (s.reg x).toNat % 10 ∧ Frame (memBlock s.i.toNat 3) s t) ∧
      (s.i.toNat + 2 > 4095 →
        ∃ t, exec (.ldB x) s = .next t ∧
          FaultedFrom s t (s.pc - 2) (.memoryOutOfRange (lowestBad s.i.toNat)))

/-- R164: V[0] to V[X] at I to I + X, I unchanged (spec's choice D20); a byte above 4095 faults and nothing is written
(spec's choices D12, D8). -/
def Obligations.StoreRegisters : Prop :=
  ∀ x : RegIdx, Encodes (0xF#4 ++ regNibble x ++ 0x55#8) (.ldMemVx x) ∧
    ∀ s : State,
      (s.i.toNat + x.val ≤ 4095 →
        ∃ t, exec (.ldMemVx x) s = .next t ∧
          (∀ k : RegIdx, k.val ≤ x.val → t.readMem (s.i.toNat + k.val) = s.reg k) ∧
          Frame (memBlock s.i.toNat (x.val + 1)) s t) ∧
      (s.i.toNat + x.val > 4095 →
        ∃ t, exec (.ldMemVx x) s = .next t ∧
          FaultedFrom s t (s.pc - 2) (.memoryOutOfRange (lowestBad s.i.toNat)))

/-- R165: V[0] to V[X] from I to I + X, I unchanged (spec's choice D20); a byte above 4095 faults and no register is
written (spec's choices D12, D8). -/
def Obligations.LoadRegisters : Prop :=
  ∀ x : RegIdx, Encodes (0xF#4 ++ regNibble x ++ 0x65#8) (.ldVxMem x) ∧
    ∀ s : State,
      (s.i.toNat + x.val ≤ 4095 →
        ∃ t, exec (.ldVxMem x) s = .next t ∧
          (∀ k : RegIdx, k.val ≤ x.val → t.reg k = s.readMem (s.i.toNat + k.val)) ∧
          Frame {p | ∃ k : RegIdx, k.val ≤ x.val ∧ p = .v k} s t) ∧
      (s.i.toNat + x.val > 4095 →
        ∃ t, exec (.ldVxMem x) s = .next t ∧
          FaultedFrom s t (s.pc - 2) (.memoryOutOfRange (lowestBad s.i.toNat)))

/-- FX55 and later, whatever registers have changed, FX65 with the same X and I restore V[0] to V[X] (R165, L1-7). -/
def Obligations.StoreThenLoadRestores : Prop :=
  ∀ (x : RegIdx) (s t u : State), s.i.toNat + x.val ≤ 4095 →
    exec (.ldMemVx x) s = .next t → u.i = s.i → (∀ a, u.readMem a = t.readMem a) →
    ∃ w, exec (.ldVxMem x) u = .next w ∧ (∀ k : RegIdx, k.val ≤ x.val → w.reg k = s.reg k) ∧
      ∀ k : RegIdx, k.val > x.val → w.reg k = u.reg k

/-- R62 (spec's inference): a word FX55 writes over the instruction after it is the word the very next step fetches and runs. -/
def Obligations.StoredWordIsFetchedNext : Prop :=
  ∀ (x k j : RegIdx) (s : State) (i : Instr), Safe s → s.i.toNat + x.val ≤ 4095 →
    j.val = k.val + 1 → j.val ≤ x.val → s.pc.toNat = s.i.toNat + k.val →
    decode (s.reg k ++ s.reg j) = some i →
    ∃ t, exec (.ldMemVx x) s = .next t ∧ step t = exec i t.advance

/-! Key and timer instructions (spec/44_keys_timers.md). -/

/-- R180, R181: the key skips; a key index above 15 faults (R186, spec's choices D23, D8). -/
def Obligations.KeySkips : Prop :=
  ∀ x : RegIdx,
    Encodes (0xE#4 ++ regNibble x ++ 0x9E#8) (.skp x) ∧ Encodes (0xE#4 ++ regNibble x ++ 0xA1#8) (.sknp x) ∧
    ∀ s : State,
      (∀ k : Fin 16, k.val = (s.reg x).toNat →
        (∃ t, exec (.skp x) s = .next t ∧ t.pc = (if s.held k = true then s.pc + 2 else s.pc) ∧ Frame {.pc} s t) ∧
        (∃ t, exec (.sknp x) s = .next t ∧ t.pc = (if s.held k = true then s.pc else s.pc + 2) ∧
          Frame {.pc} s t)) ∧
      ((s.reg x).toNat > 15 → ∀ i, (i = .skp x ∨ i = .sknp x) →
        ∃ t, exec i s = .next t ∧ FaultedFrom s t (s.pc - 2) (.keyIndexOutOfRange (s.reg x)))

/-- R182, R184, R185: the transfers between V[X] and the timers. -/
def Obligations.TimerTransfers : Prop :=
  ∀ x : RegIdx,
    Encodes (0xF#4 ++ regNibble x ++ 0x07#8) (.ldVxDt x) ∧ Encodes (0xF#4 ++ regNibble x ++ 0x15#8) (.ldDtVx x) ∧
    Encodes (0xF#4 ++ regNibble x ++ 0x18#8) (.ldStVx x) ∧
    ∀ s : State,
      (∃ t, exec (.ldVxDt x) s = .next t ∧ t.reg x = s.dt ∧ Frame {.v x} s t) ∧
      (∃ t, exec (.ldDtVx x) s = .next t ∧ t.dt = s.reg x ∧ Frame {.dt} s t) ∧
      (∃ t, exec (.ldStVx x) s = .next t ∧ t.st = s.reg x ∧ Frame {.st} s t)

/-- R183 (spec's choices D21 for the rollback, D35 for the destination): the least key held goes to V[X]; with none
held only PC changes, back by 2, to this instruction. -/
def Obligations.WaitForKey : Prop :=
  ∀ x : RegIdx, Encodes (0xF#4 ++ regNibble x ++ 0x0A#8) (.ldVxK x) ∧
    ∀ s : State,
      (∀ k : Fin 16, s.held k = true → (∀ j : Fin 16, j < k → s.held j = false) →
        ∃ t, exec (.ldVxK x) s = .next t ∧ (t.reg x).toNat = k.val ∧ Frame {.v x} s t) ∧
      ((∀ k, s.held k = false) → ∃ t, exec (.ldVxK x) s = .next t ∧ t.pc = s.pc - 2 ∧ Frame {.pc} s t)

/-! The clock and the host interface (spec/60_exceptions.md). -/

/-- R210 to R213 (spec's choices D9, D24, D27): `clock(n)` on a core that n steps leave running is those n steps and then ONE decrement of each
timer, with the tone outputs; where a step faults, or the core has faulted before, it returns the record and ends with
no timer tick. -/
def Obligations.ClockIsStepsThenOneTick : Prop :=
  ∀ (n : Nat) (s t : State), Host.Core.run core n s = .next t →
    (t.status = .running →
      ∃ u, clock n s = .next (u, .ok (decide (u.st ≠ 0)) (decide (t.st = 1))) ∧
        u.dt.toNat = t.dt.toNat - 1 ∧ u.st.toNat = t.st.toNat - 1 ∧ Frame {.dt, .st} t u) ∧
    (∀ f, t.status = .faulted f → clock n s = .next (t, .err f))

/-- R221 (spec's choice D28): a ROM that fits is copied to 512 on and nothing else changes; a longer one is refused, nothing written. -/
def Obligations.LoadRom : Prop :=
  ∀ (bytes : List Byte) (s : State),
    (bytes.length ≤ 3584 →
      ∃ t, transact (.loadRom bytes) s = .next (t, .load .ok) ∧
        (∀ (k : Nat) (h : k < bytes.length), t.readMem (512 + k) = bytes[k]) ∧
        Frame (memBlock 512 bytes.length) s t) ∧
    (bytes.length > 3584 → transact (.loadRom bytes) s = .next (s, .load .romTooLarge))

/-- R222, R223: the host sets the keys and nothing else, no step of the core writes them, and they keep their value
over every transaction but `set_keys` and reset, which clears them (R241, spec's choice D25); the host reads the 2048
cells (R220) and changes nothing. Cell (x, y) is at index x + 64·y, R34's linear index; that the reply lists the cells in
that order is the model's DESIGN CHOICE (log entry 10). -/
def Obligations.KeysInDisplayOut : Prop :=
  (∀ (k : Keys) (s : State), ∃ t, transact (.setKeys k) s = .next (t, .done) ∧
    (∀ j : Fin 16, t.held j = k[j.val]) ∧ Frame {p | ∃ j, p = .key j} s t) ∧
  (∀ (s t : State) (j : Fin 16), step s = .next t → t.held j = s.held j) ∧
  (∀ (tr : Transaction) (s t : State) (r : Reply) (j : Fin 16), transact tr s = .next (t, r) → tr ≠ .reset →
    (∀ k, tr ≠ .setKeys k) → t.held j = s.held j) ∧
  (∀ s : State, ∃ cells, transact .readDisplay s = .next (s, .display cells) ∧ cells.length = 2048 ∧
    ∀ (x : Fin 64) (y : Fin 32), cells[x.val + 64 * y.val]? = some (s.disp.cell x y))

/-- R202, R213, R242 (spec's choices D8, D9): a fault is sticky: a step does nothing, `clock` returns the record and changes nothing, no transaction
but reset changes STATUS, and reset returns it to Running. -/
def Obligations.OnlyResetClearsFault : Prop :=
  ∀ (s : State) (f : FaultRecord), s.status = .faulted f →
    step s = .next s ∧ (∀ n, clock n s = .next (s, .err f)) ∧
    ∀ tr : Transaction, ∃ t r, transact tr s = .next (t, r) ∧
      (tr = .reset → t.status = .running) ∧ (tr ≠ .reset → t.status = .faulted f)
end

