-- ==== Sys2Proof/Laws/Decode.lean ====
section
/-! SUPPORT. The fields of a word written as its parts side by side (R71). -/

namespace Sys2Proof

theorem fieldsOf_nnn (p : Nibble) (a : Addr12) :
    fieldsOf (p ++ a) = ⟨p, a.extractLsb' 8 4, a.extractLsb' 4 4, a.extractLsb' 0 4, a.extractLsb' 0 8, a⟩ := by
  simp only [fieldsOf, Fields.mk.injEq]
  refine ⟨?_, ?_, ?_, ?_, ?_, ?_⟩ <;> apply BitVec.eq_of_getLsbD_eq <;> intro i hi <;>
    simp only [BitVec.getLsbD_extractLsb', BitVec.getLsbD_append, hi, decide_true, Bool.true_and] <;>
    split_ifs <;> first | rfl | omega | (congr 1; omega)

theorem fieldsOf_xnn (p x : Nibble) (b : Byte) :
    fieldsOf (p ++ x ++ b) = ⟨p, x, b.extractLsb' 4 4, b.extractLsb' 0 4, b, x ++ b⟩ := by
  simp only [fieldsOf, Fields.mk.injEq]
  refine ⟨?_, ?_, ?_, ?_, ?_, ?_⟩ <;> apply BitVec.eq_of_getLsbD_eq <;> intro i hi <;>
    simp only [BitVec.getLsbD_extractLsb', BitVec.getLsbD_append, hi, decide_true, Bool.true_and] <;>
    split_ifs <;> first | rfl | omega | (congr 1; omega)

theorem fieldsOf_xyn (p x y n : Nibble) :
    fieldsOf (p ++ x ++ y ++ n) = ⟨p, x, y, n, y ++ n, x ++ y ++ n⟩ := by
  simp only [fieldsOf, Fields.mk.injEq]
  refine ⟨?_, ?_, ?_, ?_, ?_, ?_⟩ <;> apply BitVec.eq_of_getLsbD_eq <;> intro i hi <;>
    simp only [BitVec.getLsbD_extractLsb', BitVec.getLsbD_append, hi, decide_true, Bool.true_and] <;>
    split_ifs <;> first | rfl | omega | (congr 1; omega)

theorem toNat_nnn (p : Nibble) (a : Addr12) : (p ++ a : Word).toNat = p.toNat * 4096 + a.toNat := by
  rw [BitVec.toNat_append, ← Nat.shiftLeft_add_eq_or_of_lt a.isLt, Nat.shiftLeft_eq]

theorem toNat_xnn (p x : Nibble) (b : Byte) :
    (p ++ x ++ b : Word).toNat = p.toNat * 4096 + x.toNat * 256 + b.toNat := by
  rw [BitVec.toNat_append, ← Nat.shiftLeft_add_eq_or_of_lt b.isLt, Nat.shiftLeft_eq, BitVec.toNat_append,
    ← Nat.shiftLeft_add_eq_or_of_lt x.isLt, Nat.shiftLeft_eq]
  omega

theorem toNat_xyn (p x y n : Nibble) :
    (p ++ x ++ y ++ n : Word).toNat = p.toNat * 4096 + x.toNat * 256 + y.toNat * 16 + n.toNat := by
  rw [BitVec.toNat_append, ← Nat.shiftLeft_add_eq_or_of_lt n.isLt, Nat.shiftLeft_eq, BitVec.toNat_append,
    ← Nat.shiftLeft_add_eq_or_of_lt y.isLt, Nat.shiftLeft_eq, BitVec.toNat_append,
    ← Nat.shiftLeft_add_eq_or_of_lt x.isLt, Nat.shiftLeft_eq]
  omega

theorem div_nnn (p : Nibble) (a : Addr12) : (p ++ a : Word).toNat / 4096 = p.toNat := by
  have := a.isLt; rw [toNat_nnn]; omega

theorem div_xnn (p x : Nibble) (b : Byte) : (p ++ x ++ b : Word).toNat / 4096 = p.toNat := by
  have := x.isLt; have := b.isLt; rw [toNat_xnn]; omega

theorem mod_xnn (p x : Nibble) (b : Byte) : (p ++ x ++ b : Word).toNat % 256 = b.toNat := by
  have := b.isLt; rw [toNat_xnn]; omega

theorem div_xyn (p x y n : Nibble) : (p ++ x ++ y ++ n : Word).toNat / 4096 = p.toNat := by
  have := x.isLt; have := y.isLt; have := n.isLt; rw [toNat_xyn]; omega

theorem mod_xyn (p x y n : Nibble) : (p ++ x ++ y ++ n : Word).toNat % 16 = n.toNat := by
  have := n.isLt; rw [toNat_xyn]; omega

/-- A word is its four nibbles. -/
theorem word_eq_nibbles (w : Word) :
    w = w.extractLsb' 12 4 ++ w.extractLsb' 8 4 ++ w.extractLsb' 4 4 ++ w.extractLsb' 0 4 := by
  have := w.isLt
  apply BitVec.eq_of_toNat_eq
  rw [toNat_xyn]
  simp only [BitVec.extractLsb'_toNat, Nat.shiftRight_eq_div_pow]
  omega

/-- The address operand and the immediate, put together from their nibbles. -/
theorem nnn_of_nibbles (p x y n : Nibble) : (p ++ (x ++ y ++ n : Addr12) : Word) = p ++ x ++ y ++ n := by
  apply BitVec.eq_of_getLsbD_eq; intro i hi
  simp only [BitVec.getLsbD_append]
  split_ifs <;> first | rfl | omega

theorem nn_of_nibbles (p x y n : Nibble) : (p ++ x ++ (y ++ n : Byte) : Word) = p ++ x ++ y ++ n := by
  apply BitVec.eq_of_getLsbD_eq; intro i hi
  simp only [BitVec.getLsbD_append]
  split_ifs <;> first | rfl | omega

@[simp] theorem regNibble_reg (r : RegIdx) : (regNibble r).reg = r := rfl

@[simp] theorem reg_regNibble (n : Nibble) : regNibble n.reg = n := rfl

end Sys2Proof
end

