-- ==== Sys2Proof/Laws/State.lean ====
section
/-! SUPPORT. The small lemmas of the state's updates: one per field per update, true by rfl. -/

namespace Sys2Proof.Machine

/-! `setReg` -/

@[simp] theorem State.setReg_v (s : State) (r : RegIdx) (b : Byte) : (s.setReg r b).v = s.v.set r.val b := rfl
@[simp] theorem State.setReg_i (s : State) (r : RegIdx) (b : Byte) : (s.setReg r b).i = s.i := rfl
@[simp] theorem State.setReg_pc (s : State) (r : RegIdx) (b : Byte) : (s.setReg r b).pc = s.pc := rfl
@[simp] theorem State.setReg_stack (s : State) (r : RegIdx) (b : Byte) : (s.setReg r b).stack = s.stack := rfl
@[simp] theorem State.setReg_sp (s : State) (r : RegIdx) (b : Byte) : (s.setReg r b).sp = s.sp := rfl
@[simp] theorem State.setReg_dt (s : State) (r : RegIdx) (b : Byte) : (s.setReg r b).dt = s.dt := rfl
@[simp] theorem State.setReg_st (s : State) (r : RegIdx) (b : Byte) : (s.setReg r b).st = s.st := rfl
@[simp] theorem State.setReg_mem (s : State) (r : RegIdx) (b : Byte) : (s.setReg r b).mem = s.mem := rfl
@[simp] theorem State.setReg_disp (s : State) (r : RegIdx) (b : Byte) : (s.setReg r b).disp = s.disp := rfl
@[simp] theorem State.setReg_key (s : State) (r : RegIdx) (b : Byte) : (s.setReg r b).key = s.key := rfl
@[simp] theorem State.setReg_status (s : State) (r : RegIdx) (b : Byte) : (s.setReg r b).status = s.status := rfl
@[simp] theorem State.setReg_font (s : State) (r : RegIdx) (b : Byte) : (s.setReg r b).font = s.font := rfl
@[simp] theorem State.setReg_draws (s : State) (r : RegIdx) (b : Byte) : (s.setReg r b).draws = s.draws := rfl
@[simp] theorem State.setReg_entry (s : State) (r : RegIdx) (b : Byte) (k : Fin 16) : (s.setReg r b).entry k = s.entry k := rfl
@[simp] theorem State.setReg_held (s : State) (r : RegIdx) (b : Byte) (k : Fin 16) : (s.setReg r b).held k = s.held k := rfl
@[simp] theorem State.setReg_readMem (s : State) (r : RegIdx) (b : Byte) (a : Nat) : (s.setReg r b).readMem a = s.readMem a := rfl

/-! `setI` -/

@[simp] theorem State.setI_v (s : State) (w : Word) : (s.setI w).v = s.v := rfl
@[simp] theorem State.setI_i (s : State) (w : Word) : (s.setI w).i = w := rfl
@[simp] theorem State.setI_pc (s : State) (w : Word) : (s.setI w).pc = s.pc := rfl
@[simp] theorem State.setI_stack (s : State) (w : Word) : (s.setI w).stack = s.stack := rfl
@[simp] theorem State.setI_sp (s : State) (w : Word) : (s.setI w).sp = s.sp := rfl
@[simp] theorem State.setI_dt (s : State) (w : Word) : (s.setI w).dt = s.dt := rfl
@[simp] theorem State.setI_st (s : State) (w : Word) : (s.setI w).st = s.st := rfl
@[simp] theorem State.setI_mem (s : State) (w : Word) : (s.setI w).mem = s.mem := rfl
@[simp] theorem State.setI_disp (s : State) (w : Word) : (s.setI w).disp = s.disp := rfl
@[simp] theorem State.setI_key (s : State) (w : Word) : (s.setI w).key = s.key := rfl
@[simp] theorem State.setI_status (s : State) (w : Word) : (s.setI w).status = s.status := rfl
@[simp] theorem State.setI_font (s : State) (w : Word) : (s.setI w).font = s.font := rfl
@[simp] theorem State.setI_draws (s : State) (w : Word) : (s.setI w).draws = s.draws := rfl
@[simp] theorem State.setI_reg (s : State) (w : Word) (q : RegIdx) : (s.setI w).reg q = s.reg q := rfl
@[simp] theorem State.setI_entry (s : State) (w : Word) (k : Fin 16) : (s.setI w).entry k = s.entry k := rfl
@[simp] theorem State.setI_held (s : State) (w : Word) (k : Fin 16) : (s.setI w).held k = s.held k := rfl
@[simp] theorem State.setI_readMem (s : State) (w : Word) (a : Nat) : (s.setI w).readMem a = s.readMem a := rfl

/-! `setPc` -/

@[simp] theorem State.setPc_v (s : State) (w : Word) : (s.setPc w).v = s.v := rfl
@[simp] theorem State.setPc_i (s : State) (w : Word) : (s.setPc w).i = s.i := rfl
@[simp] theorem State.setPc_pc (s : State) (w : Word) : (s.setPc w).pc = w := rfl
@[simp] theorem State.setPc_stack (s : State) (w : Word) : (s.setPc w).stack = s.stack := rfl
@[simp] theorem State.setPc_sp (s : State) (w : Word) : (s.setPc w).sp = s.sp := rfl
@[simp] theorem State.setPc_dt (s : State) (w : Word) : (s.setPc w).dt = s.dt := rfl
@[simp] theorem State.setPc_st (s : State) (w : Word) : (s.setPc w).st = s.st := rfl
@[simp] theorem State.setPc_mem (s : State) (w : Word) : (s.setPc w).mem = s.mem := rfl
@[simp] theorem State.setPc_disp (s : State) (w : Word) : (s.setPc w).disp = s.disp := rfl
@[simp] theorem State.setPc_key (s : State) (w : Word) : (s.setPc w).key = s.key := rfl
@[simp] theorem State.setPc_status (s : State) (w : Word) : (s.setPc w).status = s.status := rfl
@[simp] theorem State.setPc_font (s : State) (w : Word) : (s.setPc w).font = s.font := rfl
@[simp] theorem State.setPc_draws (s : State) (w : Word) : (s.setPc w).draws = s.draws := rfl
@[simp] theorem State.setPc_reg (s : State) (w : Word) (q : RegIdx) : (s.setPc w).reg q = s.reg q := rfl
@[simp] theorem State.setPc_entry (s : State) (w : Word) (k : Fin 16) : (s.setPc w).entry k = s.entry k := rfl
@[simp] theorem State.setPc_held (s : State) (w : Word) (k : Fin 16) : (s.setPc w).held k = s.held k := rfl
@[simp] theorem State.setPc_readMem (s : State) (w : Word) (a : Nat) : (s.setPc w).readMem a = s.readMem a := rfl

/-! `setDt` -/

@[simp] theorem State.setDt_v (s : State) (b : Byte) : (s.setDt b).v = s.v := rfl
@[simp] theorem State.setDt_i (s : State) (b : Byte) : (s.setDt b).i = s.i := rfl
@[simp] theorem State.setDt_pc (s : State) (b : Byte) : (s.setDt b).pc = s.pc := rfl
@[simp] theorem State.setDt_stack (s : State) (b : Byte) : (s.setDt b).stack = s.stack := rfl
@[simp] theorem State.setDt_sp (s : State) (b : Byte) : (s.setDt b).sp = s.sp := rfl
@[simp] theorem State.setDt_dt (s : State) (b : Byte) : (s.setDt b).dt = b := rfl
@[simp] theorem State.setDt_st (s : State) (b : Byte) : (s.setDt b).st = s.st := rfl
@[simp] theorem State.setDt_mem (s : State) (b : Byte) : (s.setDt b).mem = s.mem := rfl
@[simp] theorem State.setDt_disp (s : State) (b : Byte) : (s.setDt b).disp = s.disp := rfl
@[simp] theorem State.setDt_key (s : State) (b : Byte) : (s.setDt b).key = s.key := rfl
@[simp] theorem State.setDt_status (s : State) (b : Byte) : (s.setDt b).status = s.status := rfl
@[simp] theorem State.setDt_font (s : State) (b : Byte) : (s.setDt b).font = s.font := rfl
@[simp] theorem State.setDt_draws (s : State) (b : Byte) : (s.setDt b).draws = s.draws := rfl
@[simp] theorem State.setDt_reg (s : State) (b : Byte) (q : RegIdx) : (s.setDt b).reg q = s.reg q := rfl
@[simp] theorem State.setDt_entry (s : State) (b : Byte) (k : Fin 16) : (s.setDt b).entry k = s.entry k := rfl
@[simp] theorem State.setDt_held (s : State) (b : Byte) (k : Fin 16) : (s.setDt b).held k = s.held k := rfl
@[simp] theorem State.setDt_readMem (s : State) (b : Byte) (a : Nat) : (s.setDt b).readMem a = s.readMem a := rfl

/-! `setSt` -/

@[simp] theorem State.setSt_v (s : State) (b : Byte) : (s.setSt b).v = s.v := rfl
@[simp] theorem State.setSt_i (s : State) (b : Byte) : (s.setSt b).i = s.i := rfl
@[simp] theorem State.setSt_pc (s : State) (b : Byte) : (s.setSt b).pc = s.pc := rfl
@[simp] theorem State.setSt_stack (s : State) (b : Byte) : (s.setSt b).stack = s.stack := rfl
@[simp] theorem State.setSt_sp (s : State) (b : Byte) : (s.setSt b).sp = s.sp := rfl
@[simp] theorem State.setSt_dt (s : State) (b : Byte) : (s.setSt b).dt = s.dt := rfl
@[simp] theorem State.setSt_st (s : State) (b : Byte) : (s.setSt b).st = b := rfl
@[simp] theorem State.setSt_mem (s : State) (b : Byte) : (s.setSt b).mem = s.mem := rfl
@[simp] theorem State.setSt_disp (s : State) (b : Byte) : (s.setSt b).disp = s.disp := rfl
@[simp] theorem State.setSt_key (s : State) (b : Byte) : (s.setSt b).key = s.key := rfl
@[simp] theorem State.setSt_status (s : State) (b : Byte) : (s.setSt b).status = s.status := rfl
@[simp] theorem State.setSt_font (s : State) (b : Byte) : (s.setSt b).font = s.font := rfl
@[simp] theorem State.setSt_draws (s : State) (b : Byte) : (s.setSt b).draws = s.draws := rfl
@[simp] theorem State.setSt_reg (s : State) (b : Byte) (q : RegIdx) : (s.setSt b).reg q = s.reg q := rfl
@[simp] theorem State.setSt_entry (s : State) (b : Byte) (k : Fin 16) : (s.setSt b).entry k = s.entry k := rfl
@[simp] theorem State.setSt_held (s : State) (b : Byte) (k : Fin 16) : (s.setSt b).held k = s.held k := rfl
@[simp] theorem State.setSt_readMem (s : State) (b : Byte) (a : Nat) : (s.setSt b).readMem a = s.readMem a := rfl

/-! `setStatus` -/

@[simp] theorem State.setStatus_v (s : State) (x : Status) : (s.setStatus x).v = s.v := rfl
@[simp] theorem State.setStatus_i (s : State) (x : Status) : (s.setStatus x).i = s.i := rfl
@[simp] theorem State.setStatus_pc (s : State) (x : Status) : (s.setStatus x).pc = s.pc := rfl
@[simp] theorem State.setStatus_stack (s : State) (x : Status) : (s.setStatus x).stack = s.stack := rfl
@[simp] theorem State.setStatus_sp (s : State) (x : Status) : (s.setStatus x).sp = s.sp := rfl
@[simp] theorem State.setStatus_dt (s : State) (x : Status) : (s.setStatus x).dt = s.dt := rfl
@[simp] theorem State.setStatus_st (s : State) (x : Status) : (s.setStatus x).st = s.st := rfl
@[simp] theorem State.setStatus_mem (s : State) (x : Status) : (s.setStatus x).mem = s.mem := rfl
@[simp] theorem State.setStatus_disp (s : State) (x : Status) : (s.setStatus x).disp = s.disp := rfl
@[simp] theorem State.setStatus_key (s : State) (x : Status) : (s.setStatus x).key = s.key := rfl
@[simp] theorem State.setStatus_status (s : State) (x : Status) : (s.setStatus x).status = x := rfl
@[simp] theorem State.setStatus_font (s : State) (x : Status) : (s.setStatus x).font = s.font := rfl
@[simp] theorem State.setStatus_draws (s : State) (x : Status) : (s.setStatus x).draws = s.draws := rfl
@[simp] theorem State.setStatus_reg (s : State) (x : Status) (q : RegIdx) : (s.setStatus x).reg q = s.reg q := rfl
@[simp] theorem State.setStatus_entry (s : State) (x : Status) (k : Fin 16) : (s.setStatus x).entry k = s.entry k := rfl
@[simp] theorem State.setStatus_held (s : State) (x : Status) (k : Fin 16) : (s.setStatus x).held k = s.held k := rfl
@[simp] theorem State.setStatus_readMem (s : State) (x : Status) (a : Nat) : (s.setStatus x).readMem a = s.readMem a := rfl

/-! `setDisp` -/

@[simp] theorem State.setDisp_v (s : State) (d : Display) : (s.setDisp d).v = s.v := rfl
@[simp] theorem State.setDisp_i (s : State) (d : Display) : (s.setDisp d).i = s.i := rfl
@[simp] theorem State.setDisp_pc (s : State) (d : Display) : (s.setDisp d).pc = s.pc := rfl
@[simp] theorem State.setDisp_stack (s : State) (d : Display) : (s.setDisp d).stack = s.stack := rfl
@[simp] theorem State.setDisp_sp (s : State) (d : Display) : (s.setDisp d).sp = s.sp := rfl
@[simp] theorem State.setDisp_dt (s : State) (d : Display) : (s.setDisp d).dt = s.dt := rfl
@[simp] theorem State.setDisp_st (s : State) (d : Display) : (s.setDisp d).st = s.st := rfl
@[simp] theorem State.setDisp_mem (s : State) (d : Display) : (s.setDisp d).mem = s.mem := rfl
@[simp] theorem State.setDisp_disp (s : State) (d : Display) : (s.setDisp d).disp = d := rfl
@[simp] theorem State.setDisp_key (s : State) (d : Display) : (s.setDisp d).key = s.key := rfl
@[simp] theorem State.setDisp_status (s : State) (d : Display) : (s.setDisp d).status = s.status := rfl
@[simp] theorem State.setDisp_font (s : State) (d : Display) : (s.setDisp d).font = s.font := rfl
@[simp] theorem State.setDisp_draws (s : State) (d : Display) : (s.setDisp d).draws = s.draws := rfl
@[simp] theorem State.setDisp_reg (s : State) (d : Display) (q : RegIdx) : (s.setDisp d).reg q = s.reg q := rfl
@[simp] theorem State.setDisp_entry (s : State) (d : Display) (k : Fin 16) : (s.setDisp d).entry k = s.entry k := rfl
@[simp] theorem State.setDisp_held (s : State) (d : Display) (k : Fin 16) : (s.setDisp d).held k = s.held k := rfl
@[simp] theorem State.setDisp_readMem (s : State) (d : Display) (a : Nat) : (s.setDisp d).readMem a = s.readMem a := rfl

/-! `setKeys` -/

@[simp] theorem State.setKeys_v (s : State) (k : Keys) : (s.setKeys k).v = s.v := rfl
@[simp] theorem State.setKeys_i (s : State) (k : Keys) : (s.setKeys k).i = s.i := rfl
@[simp] theorem State.setKeys_pc (s : State) (k : Keys) : (s.setKeys k).pc = s.pc := rfl
@[simp] theorem State.setKeys_stack (s : State) (k : Keys) : (s.setKeys k).stack = s.stack := rfl
@[simp] theorem State.setKeys_sp (s : State) (k : Keys) : (s.setKeys k).sp = s.sp := rfl
@[simp] theorem State.setKeys_dt (s : State) (k : Keys) : (s.setKeys k).dt = s.dt := rfl
@[simp] theorem State.setKeys_st (s : State) (k : Keys) : (s.setKeys k).st = s.st := rfl
@[simp] theorem State.setKeys_mem (s : State) (k : Keys) : (s.setKeys k).mem = s.mem := rfl
@[simp] theorem State.setKeys_disp (s : State) (k : Keys) : (s.setKeys k).disp = s.disp := rfl
@[simp] theorem State.setKeys_key (s : State) (k : Keys) : (s.setKeys k).key = k := rfl
@[simp] theorem State.setKeys_status (s : State) (k : Keys) : (s.setKeys k).status = s.status := rfl
@[simp] theorem State.setKeys_font (s : State) (k : Keys) : (s.setKeys k).font = s.font := rfl
@[simp] theorem State.setKeys_draws (s : State) (k : Keys) : (s.setKeys k).draws = s.draws := rfl
@[simp] theorem State.setKeys_reg (s : State) (k : Keys) (q : RegIdx) : (s.setKeys k).reg q = s.reg q := rfl
@[simp] theorem State.setKeys_entry (s : State) (k : Keys) (j : Fin 16) : (s.setKeys k).entry j = s.entry j := rfl
@[simp] theorem State.setKeys_readMem (s : State) (k : Keys) (a : Nat) : (s.setKeys k).readMem a = s.readMem a := rfl

/-! `writeMem` -/

@[simp] theorem State.writeMem_v (s : State) (a : Nat) (u : Byte) : (s.writeMem a u).v = s.v := rfl
@[simp] theorem State.writeMem_i (s : State) (a : Nat) (u : Byte) : (s.writeMem a u).i = s.i := rfl
@[simp] theorem State.writeMem_pc (s : State) (a : Nat) (u : Byte) : (s.writeMem a u).pc = s.pc := rfl
@[simp] theorem State.writeMem_stack (s : State) (a : Nat) (u : Byte) : (s.writeMem a u).stack = s.stack := rfl
@[simp] theorem State.writeMem_sp (s : State) (a : Nat) (u : Byte) : (s.writeMem a u).sp = s.sp := rfl
@[simp] theorem State.writeMem_dt (s : State) (a : Nat) (u : Byte) : (s.writeMem a u).dt = s.dt := rfl
@[simp] theorem State.writeMem_st (s : State) (a : Nat) (u : Byte) : (s.writeMem a u).st = s.st := rfl
@[simp] theorem State.writeMem_mem (s : State) (a : Nat) (u : Byte) : (s.writeMem a u).mem = Memory.write s.font s.mem a u := rfl
@[simp] theorem State.writeMem_disp (s : State) (a : Nat) (u : Byte) : (s.writeMem a u).disp = s.disp := rfl
@[simp] theorem State.writeMem_key (s : State) (a : Nat) (u : Byte) : (s.writeMem a u).key = s.key := rfl
@[simp] theorem State.writeMem_status (s : State) (a : Nat) (u : Byte) : (s.writeMem a u).status = s.status := rfl
@[simp] theorem State.writeMem_font (s : State) (a : Nat) (u : Byte) : (s.writeMem a u).font = s.font := rfl
@[simp] theorem State.writeMem_draws (s : State) (a : Nat) (u : Byte) : (s.writeMem a u).draws = s.draws := rfl
@[simp] theorem State.writeMem_reg (s : State) (a : Nat) (u : Byte) (q : RegIdx) : (s.writeMem a u).reg q = s.reg q := rfl
@[simp] theorem State.writeMem_entry (s : State) (a : Nat) (u : Byte) (k : Fin 16) : (s.writeMem a u).entry k = s.entry k := rfl
@[simp] theorem State.writeMem_held (s : State) (a : Nat) (u : Byte) (k : Fin 16) : (s.writeMem a u).held k = s.held k := rfl

/-! `advance` and `drawByte` -/

@[simp] theorem State.advance_v (s : State) : s.advance.v = s.v := rfl
@[simp] theorem State.advance_i (s : State) : s.advance.i = s.i := rfl
@[simp] theorem State.advance_pc (s : State) : s.advance.pc = s.pc + 2 := rfl
@[simp] theorem State.advance_stack (s : State) : s.advance.stack = s.stack := rfl
@[simp] theorem State.advance_sp (s : State) : s.advance.sp = s.sp := rfl
@[simp] theorem State.advance_dt (s : State) : s.advance.dt = s.dt := rfl
@[simp] theorem State.advance_st (s : State) : s.advance.st = s.st := rfl
@[simp] theorem State.advance_mem (s : State) : s.advance.mem = s.mem := rfl
@[simp] theorem State.advance_disp (s : State) : s.advance.disp = s.disp := rfl
@[simp] theorem State.advance_key (s : State) : s.advance.key = s.key := rfl
@[simp] theorem State.advance_status (s : State) : s.advance.status = s.status := rfl
@[simp] theorem State.advance_font (s : State) : s.advance.font = s.font := rfl
@[simp] theorem State.advance_draws (s : State) : s.advance.draws = s.draws := rfl
@[simp] theorem State.advance_reg (s : State) (q : RegIdx) : s.advance.reg q = s.reg q := rfl
@[simp] theorem State.advance_entry (s : State) (k : Fin 16) : s.advance.entry k = s.entry k := rfl
@[simp] theorem State.advance_held (s : State) (k : Fin 16) : s.advance.held k = s.held k := rfl
@[simp] theorem State.advance_readMem (s : State) (a : Nat) : s.advance.readMem a = s.readMem a := rfl
@[simp] theorem State.drawByte_v (s : State) : s.drawByte.2.v = s.v := rfl
@[simp] theorem State.drawByte_i (s : State) : s.drawByte.2.i = s.i := rfl
@[simp] theorem State.drawByte_pc (s : State) : s.drawByte.2.pc = s.pc := rfl
@[simp] theorem State.drawByte_stack (s : State) : s.drawByte.2.stack = s.stack := rfl
@[simp] theorem State.drawByte_sp (s : State) : s.drawByte.2.sp = s.sp := rfl
@[simp] theorem State.drawByte_dt (s : State) : s.drawByte.2.dt = s.dt := rfl
@[simp] theorem State.drawByte_st (s : State) : s.drawByte.2.st = s.st := rfl
@[simp] theorem State.drawByte_mem (s : State) : s.drawByte.2.mem = s.mem := rfl
@[simp] theorem State.drawByte_disp (s : State) : s.drawByte.2.disp = s.disp := rfl
@[simp] theorem State.drawByte_key (s : State) : s.drawByte.2.key = s.key := rfl
@[simp] theorem State.drawByte_status (s : State) : s.drawByte.2.status = s.status := rfl
@[simp] theorem State.drawByte_font (s : State) : s.drawByte.2.font = s.font := rfl
@[simp] theorem State.drawByte_draws (s : State) : s.drawByte.2.draws = s.draws + 1 := rfl
@[simp] theorem State.drawByte_reg (s : State) (q : RegIdx) : s.drawByte.2.reg q = s.reg q := rfl
@[simp] theorem State.drawByte_entry (s : State) (k : Fin 16) : s.drawByte.2.entry k = s.entry k := rfl
@[simp] theorem State.drawByte_held (s : State) (k : Fin 16) : s.drawByte.2.held k = s.held k := rfl
@[simp] theorem State.drawByte_readMem (s : State) (a : Nat) : s.drawByte.2.readMem a = s.readMem a := rfl
@[simp] theorem State.drawByte_fst (s : State) : s.drawByte.1 = Config.draw s.draws := rfl

/-- Reading the register file after a register write. -/
@[simp] theorem State.setReg_reg (s : State) (r q : RegIdx) (b : Byte) :
    (s.setReg r b).reg q = if q = r then b else s.reg q := by
  simp only [State.setReg, State.reg, Vector.getElem_set, Fin.val_inj, eq_comm]

@[simp] theorem State.setKeys_held (s : State) (k : Keys) (j : Fin 16) : (s.setKeys k).held j = k[j.val] := rfl

end Sys2Proof.Machine
end

