-- ==== Sys2Proof/Laws/Memory.lean ====
section
/-! SUPPORT. The laws of memory: what a write leaves at every address, that every operation keeps the canonical form,
and that the form is canonical. -/

namespace Sys2Proof.Machine

@[simp] theorem Memory.read_nil (font : Font) (a : Nat) : Memory.read font [] a = Memory.resetByte font a := rfl

theorem Memory.read_put (font : Font) (m : Memory) (a b : Nat) (v : Byte) :
    Memory.read font (Memory.put m a v) b = if b = a then v else Memory.read font m b := by
  induction m with
  | nil => simp only [Memory.put, Memory.read, eq_comm]
  | cons c rest ih =>
    obtain ⟨d, u⟩ := c
    simp only [Memory.put]
    split_ifs with h1 h2 h3 h3 h3 <;> simp only [Memory.read] <;> split_ifs <;> first | rfl | omega | simp_all

theorem Memory.read_erase (font : Font) (m : Memory) (a b : Nat) :
    Memory.read font (Memory.erase m a) b = if b = a then Memory.resetByte font a else Memory.read font m b := by
  induction m with
  | nil => by_cases h : b = a <;> simp [Memory.erase, Memory.read, h]
  | cons c rest ih =>
    obtain ⟨d, u⟩ := c
    simp only [Memory.erase] at ih ⊢
    by_cases hd : d = a
    · subst hd
      simp only [List.filter_cons, bne_self_eq_false, Bool.false_eq_true, if_false, ih, Memory.read]
      split_ifs <;> first | rfl | omega
    · simp only [List.filter_cons, bne_iff_ne, ne_eq, hd, not_false_iff, if_true, Memory.read, ih]
      split_ifs <;> first | rfl | omega

/-- A read after a write (R59): at an address of the space the byte written, elsewhere what was there. -/
theorem Memory.read_write (font : Font) (m : Memory) (a b : Nat) (v : Byte) :
    Memory.read font (Memory.write font m a v) b =
      if b = a ∧ a < 4096 then v else Memory.read font m b := by
  unfold Memory.write
  by_cases ha : a < 4096
  · by_cases hv : v = Memory.resetByte font a
    · simp [ha, hv, Memory.read_erase]
    · simp [ha, hv, Memory.read_put]
  · simp [ha]

/-- Every address listed is above `a`. -/
theorem Memory.put_above (m : Memory) (a b : Nat) (v : Byte) (h : a < b)
    (hm : m.all (fun c => decide (a < c.1)) = true) :
    (Memory.put m b v).all (fun c => decide (a < c.1)) = true := by
  induction m with
  | nil => simpa [Memory.put] using h
  | cons c rest ih =>
    simp only [List.all_cons, Bool.and_eq_true, decide_eq_true_eq] at hm
    simp only [Memory.put]
    split_ifs <;> simp only [List.all_cons, Bool.and_eq_true, decide_eq_true_eq]
    · exact ⟨h, hm⟩
    · exact ⟨h, hm.2⟩
    · exact ⟨hm.1, ih hm.2⟩

theorem Memory.wf_put (font : Font) (m : Memory) (a : Nat) (v : Byte) (ha : a < 4096)
    (hv : v ≠ Memory.resetByte font a) (hm : Memory.wf font m = true) :
    Memory.wf font (Memory.put m a v) = true := by
  induction m with
  | nil => simp [Memory.put, Memory.wf, ha, hv]
  | cons c rest ih =>
    obtain ⟨d, u⟩ := c
    simp only [Memory.wf, Bool.and_eq_true, decide_eq_true_eq] at hm
    obtain ⟨⟨⟨hd, hu⟩, hall⟩, hrest⟩ := hm
    simp only [Memory.put]
    split_ifs with h1 h2
    · simp only [Memory.wf, Bool.and_eq_true, decide_eq_true_eq, List.all_cons]
      refine ⟨⟨⟨ha, hv⟩, h1, ?_⟩, ⟨⟨hd, hu⟩, hall⟩, hrest⟩
      simp only [List.all_eq_true, decide_eq_true_eq] at hall ⊢
      exact fun c hc => by have := hall c hc; omega
    · subst h2
      simp only [Memory.wf, Bool.and_eq_true, decide_eq_true_eq]
      exact ⟨⟨⟨ha, hv⟩, hall⟩, hrest⟩
    · simp only [Memory.wf, Bool.and_eq_true, decide_eq_true_eq]
      exact ⟨⟨⟨hd, hu⟩, Memory.put_above rest d a v (by omega) hall⟩, ih hrest⟩

theorem Memory.wf_erase (font : Font) (m : Memory) (a : Nat) (hm : Memory.wf font m = true) :
    Memory.wf font (Memory.erase m a) = true := by
  induction m with
  | nil => simp [Memory.erase, Memory.wf]
  | cons c rest ih =>
    obtain ⟨d, u⟩ := c
    simp only [Memory.wf, Bool.and_eq_true, decide_eq_true_eq] at hm
    obtain ⟨⟨⟨hd, hu⟩, hall⟩, hrest⟩ := hm
    simp only [Memory.erase, List.filter_cons] at ih ⊢
    split_ifs
    · simp only [Memory.wf, Bool.and_eq_true, decide_eq_true_eq]
      refine ⟨⟨⟨hd, hu⟩, ?_⟩, ih hrest⟩
      simp only [List.all_eq_true, decide_eq_true_eq] at hall ⊢
      exact fun c hc => hall c (List.mem_filter.mp hc).1
    · exact ih hrest

/-- Every write keeps the canonical form. -/
theorem Memory.wf_write (font : Font) (m : Memory) (a : Nat) (v : Byte) (hm : Memory.wf font m = true) :
    Memory.wf font (Memory.write font m a v) = true := by
  unfold Memory.write
  split_ifs with ha hv
  · exact Memory.wf_erase font m a hm
  · exact Memory.wf_put font m a v ha hv hm
  · exact hm

/-- The reset memory has the canonical form. -/
theorem State.construct_mem_wf (font : Font) : Memory.wf (State.construct font).font (State.construct font).mem = true :=
  rfl

/-- An address below every listed one reads as the reset contents. -/
theorem Memory.read_below (font : Font) (m : Memory) (a : Nat)
    (h : ∀ c ∈ m, a < c.1) : Memory.read font m a = Memory.resetByte font a := by
  induction m with
  | nil => rfl
  | cons c rest ih =>
    have h1 := h c (List.mem_cons_self)
    simp only [Memory.read]
    rw [if_neg (by omega), ih (fun d hd => h d (List.mem_cons_of_mem _ hd))]

/-- The form is canonical: two memories in it that read alike at every address are the same list. -/
theorem Memory.eq_of_read_eq (font : Font) (m n : Memory) (hm : Memory.wf font m = true) (hn : Memory.wf font n = true)
    (h : ∀ a, Memory.read font m a = Memory.read font n a) : m = n := by
  have above : ∀ (b : Nat) (r : Memory), r.all (fun c => decide (b < c.1)) = true → ∀ c ∈ r, b < c.1 := by
    intro b r hr c hc
    simpa using List.all_eq_true.mp hr c hc
  induction m generalizing n with
  | nil =>
    cases n with
    | nil => rfl
    | cons c rest =>
      simp only [Memory.wf, Bool.and_eq_true, decide_eq_true_eq] at hn
      exact absurd (by simpa [Memory.read] using (h c.1).symm) hn.1.1.2
  | cons c rest ih =>
    obtain ⟨a, v⟩ := c
    simp only [Memory.wf, Bool.and_eq_true, decide_eq_true_eq] at hm
    obtain ⟨⟨⟨_, hv⟩, hall⟩, hrest⟩ := hm
    cases n with
    | nil => exact absurd (by simpa [Memory.read] using h a) hv
    | cons d rest' =>
      obtain ⟨b, u⟩ := d
      simp only [Memory.wf, Bool.and_eq_true, decide_eq_true_eq] at hn
      obtain ⟨⟨⟨_, hu⟩, hall'⟩, hrest'⟩ := hn
      have hab : a = b := by
        rcases Nat.lt_trichotomy a b with hlt | heq | hgt
        · have h1 := h a
          rw [Memory.read_below font ((b, u) :: rest') a] at h1
          · exact absurd (by simpa [Memory.read] using h1) hv
          · intro c hc
            rcases List.mem_cons.mp hc with rfl | hc
            · exact hlt
            · have := above b rest' hall' c hc; omega
        · exact heq
        · have h1 := h b
          rw [Memory.read_below font ((a, v) :: rest) b] at h1
          · exact absurd (by simpa [Memory.read] using h1.symm) hu
          · intro c hc
            rcases List.mem_cons.mp hc with rfl | hc
            · exact hgt
            · have := above a rest hall c hc; omega
      subst hab
      have hvu : v = u := by simpa [Memory.read] using h a
      subst hvu
      congr 1
      refine ih rest' hrest hrest' (fun x => ?_)
      by_cases hx : a = x
      · subst hx
        rw [Memory.read_below font rest a (above a rest hall), Memory.read_below font rest' a (above a rest' hall')]
      · simpa [Memory.read, hx] using h x

/-- A byte read after a byte written, at the state. -/
theorem State.readMem_writeMem (s : State) (a b : Nat) (v : Byte) :
    (s.writeMem a v).readMem b = if b = a ∧ a < 4096 then v else s.readMem b :=
  Memory.read_write s.font s.mem a b v

end Sys2Proof.Machine
end

