-- ==== Sys2Proof/Laws/Ops.lean ====
section
/-! SUPPORT. One lemma for each shared operation, saying what it can do; proofs cite these and do not unfold it. -/

namespace Sys2Proof.Machine

/-! The address check (R54). -/

theorem firstOutOfRange_eq (a n : Nat) :
    firstOutOfRange a n = if n = 0 ∨ a + n ≤ 4096 then none else some (max a 4096) := by
  induction n generalizing a with
  | zero => rfl
  | succ k ih =>
    simp only [firstOutOfRange, ih]
    rcases Nat.lt_or_ge 4095 a with h | h
    · rw [if_pos h, if_neg (by omega), Nat.max_eq_left (by omega)]
    · rw [if_neg (by omega)]
      by_cases hk : k = 0 ∨ a + 1 + k ≤ 4096
      · rw [if_pos hk, if_pos (by omega)]
      · rw [if_neg hk, if_neg (by omega), Nat.max_eq_right (by omega), Nat.max_eq_right (by omega)]

theorem State.checked_of_fits (s : State) (a n : Nat) (k : Result) (h : n = 0 ∨ a + n ≤ 4096) :
    s.checked a n k = k := by
  simp only [State.checked, firstOutOfRange_eq, if_pos h]

theorem State.checked_of_bad (s : State) (a n : Nat) (k : Result) (hn : n ≠ 0) (h : a + n > 4096) :
    s.checked a n k = .next (s.takeFault (s.pc - 2) (.memoryOutOfRange (max a 4096))) := by
  simp only [State.checked, firstOutOfRange_eq, State.raise]
  rw [if_neg (by omega)]

/-! Frames. -/

theorem Frame.refl (c : Set Part) (s : State) : Frame c s s := by
  rintro (_ | _) _ <;> simp [SameAt]

theorem Frame.mono {c d : Set Part} {s t : State} (h : Frame c s t) (hcd : c ⊆ d) : Frame d s t :=
  fun p hp => h p (fun hc => hp (hcd hc))

theorem SameAt.trans {s t u : State} {p : Part} (h : SameAt s t p) (h' : SameAt t u p) : SameAt s u p := by
  cases p <;> simp only [SameAt] at * <;> exact h'.trans h

theorem Frame.trans {c : Set Part} {s t u : State} (h : Frame c s t) (h' : Frame c t u) : Frame c s u :=
  fun p hp => (h p hp).trans (h' p hp)

theorem frame_setReg (s : State) (r : RegIdx) (b : Byte) : Frame {.v r} s (s.setReg r b) := by
  rintro (_ | _) hp <;> simp_all [SameAt]

theorem frame_setI (s : State) (w : Word) : Frame {.i} s (s.setI w) := by
  rintro (_ | _) hp <;> simp_all [SameAt]

theorem frame_setPc (s : State) (w : Word) : Frame {.pc} s (s.setPc w) := by
  rintro (_ | _) hp <;> simp_all [SameAt]

theorem frame_setDt (s : State) (b : Byte) : Frame {.dt} s (s.setDt b) := by
  rintro (_ | _) hp <;> simp_all [SameAt]

theorem frame_setSt (s : State) (b : Byte) : Frame {.st} s (s.setSt b) := by
  rintro (_ | _) hp <;> simp_all [SameAt]

theorem frame_setStatus (s : State) (x : Status) : Frame {.status} s (s.setStatus x) := by
  rintro (_ | _) hp <;> simp_all [SameAt]

theorem frame_setDisp (s : State) (d : Display) : Frame displayCells s (s.setDisp d) := by
  rintro (_ | _) hp <;> simp_all [SameAt, displayCells]

theorem frame_setKeys (s : State) (k : Keys) : Frame {p | ∃ j, p = .key j} s (s.setKeys k) := by
  rintro (_ | _) hp <;> simp_all [SameAt]

theorem frame_writeMem (s : State) (a : Nat) (v : Byte) : Frame {.mem a} s (s.writeMem a v) := by
  rintro (_ | _) hp <;> simp_all [SameAt, State.readMem_writeMem]

theorem frame_drawByte (s : State) : Frame {.draws} s s.drawByte.2 := by
  rintro (_ | _) hp <;> simp_all [SameAt]

/-! Faults (R201). -/

theorem State.takeFault_faultedFrom (s : State) (a : Word) (k : FaultKind) : FaultedFrom s (s.takeFault a k) a k := by
  refine ⟨rfl, rfl, ?_⟩
  rintro (_ | _) hp <;> simp_all [SameAt, State.takeFault]

@[simp] theorem State.takeFault_status (s : State) (a : Word) (k : FaultKind) :
    (s.takeFault a k).status = .faulted ⟨k, a⟩ := rfl

/-! The stack (R28, R29). -/

theorem State.push_spec (s : State) (w : Word) (k : Fin 16) (hk : k.val = s.sp.val) :
    ∃ t, s.push w = some t ∧ t.entry k = w ∧ t.sp.val = s.sp.val + 1 ∧ t.mem = s.mem ∧ t.font = s.font ∧
      Frame {.sp, .stack k} s t := by
  have h : s.sp.val < 16 := hk ▸ k.isLt
  refine ⟨{ s with stack := s.stack.set s.sp.val w, sp := ⟨s.sp.val + 1, by omega⟩ },
    by simp only [State.push, dif_pos h], by simp [State.entry, hk], rfl, rfl, rfl, ?_⟩
  rintro (_ | _) hp <;> simp_all [SameAt, State.entry, State.reg, State.readMem, State.held]
  rename_i j
  rw [Vector.getElem_set_ne]
  exact fun e => hp (Fin.ext (by omega))

theorem State.push_full (s : State) (w : Word) (h : s.sp.val = 16) : s.push w = none := by
  simp [State.push, h]

theorem State.pop_spec (s : State) (k : Fin 16) (hk : k.val + 1 = s.sp.val) :
    ∃ t, s.pop = some (s.entry k, t) ∧ t.sp.val = k.val ∧ t.mem = s.mem ∧ t.font = s.font ∧ Frame {.sp} s t := by
  have h : 0 < s.sp.val := by omega
  have e : s.sp.val - 1 = k.val := by omega
  refine ⟨{ s with sp := ⟨s.sp.val - 1, by omega⟩ }, by simp only [State.pop, dif_pos h, State.entry, e], e, rfl, rfl, ?_⟩
  rintro (_ | _) hp <;> simp_all [SameAt, State.entry, State.reg, State.readMem, State.held]

theorem State.pop_empty (s : State) (h : s.sp.val = 0) : s.pop = none := by
  simp [State.pop, h]

/-! The display (R34). -/

@[simp] theorem Display.off_cell (x : Fin 64) (y : Fin 32) : Display.cell Display.off x y = false := by
  simp [Display.cell, Display.off]

theorem Display.toggle_cell (d : Display) (x x' : Fin 64) (y y' : Fin 32) :
    (d.toggle x y).cell x' y' = if x' = x ∧ y' = y then !d.cell x y else d.cell x' y' := by
  simp only [Display.cell, Display.toggle, Vector.getElem_set]
  by_cases hy : y' = y
  · subst hy
    by_cases hx : x' = x
    · subst hx; simp
    · have hx' : ¬ x.val = x'.val := fun h => hx (Fin.ext h.symm)
      simp [hx, hx']
  · have hy' : ¬ y.val = y'.val := fun h => hy (Fin.ext h.symm)
    simp [hy, hy']

/-! The blocks of FX55 and FX65 (R164, R165). -/

theorem State.storeRegs_succ (s : State) (n : Nat) :
    s.storeRegs (n + 1) = (s.storeRegs n).writeMem (s.i.toNat + n) (s.reg (Fin.ofNat 16 n)) := by
  simp [State.storeRegs, List.range_succ]

theorem State.loadRegs_succ (s : State) (n : Nat) :
    s.loadRegs (n + 1) = (s.loadRegs n).setReg (Fin.ofNat 16 n) (s.readMem (s.i.toNat + n)) := by
  simp [State.loadRegs, List.range_succ]

theorem State.storeRegs_frame (s : State) (n : Nat) : Frame (memBlock s.i.toNat n) s (s.storeRegs n) := by
  induction n with
  | zero => exact Frame.refl _ s
  | succ n ih =>
    rw [State.storeRegs_succ]
    refine (ih.mono ?_).trans ((frame_writeMem _ _ _).mono ?_)
    · rintro p ⟨k, hk, rfl⟩; exact ⟨k, by omega, rfl⟩
    · rintro p rfl; exact ⟨n, by omega, rfl⟩

theorem State.storeRegs_readMem (s : State) (n : Nat) (hn : n ≤ 16) (h : s.i.toNat + n ≤ 4096) (k : RegIdx)
    (hk : k.val < n) : (s.storeRegs n).readMem (s.i.toNat + k.val) = s.reg k := by
  induction n with
  | zero => omega
  | succ n ih =>
    rw [State.storeRegs_succ, State.readMem_writeMem]
    by_cases hkn : k.val = n
    · have e : Fin.ofNat 16 n = k := Fin.ext (by simp [Fin.ofNat]; omega)
      rw [if_pos ⟨by omega, by omega⟩, e]
    · rw [if_neg (by omega)]
      exact ih (by omega) (by omega) (by omega)

theorem State.loadRegs_reg (s : State) (n : Nat) (hn : n ≤ 16) (q : RegIdx) :
    (s.loadRegs n).reg q = if q.val < n then s.readMem (s.i.toNat + q.val) else s.reg q := by
  induction n with
  | zero => simp [State.loadRegs]
  | succ n ih =>
    rw [State.loadRegs_succ, State.setReg_reg, ih (by omega)]
    have e : q = Fin.ofNat 16 n ↔ q.val = n := by
      rw [Fin.ext_iff]; simp [Fin.ofNat]; omega
    by_cases hq : q.val = n
    · rw [if_pos (e.mpr hq), if_pos (by omega), hq]
    · rw [if_neg (fun h => hq (e.mp h))]
      split_ifs <;> first | rfl | omega

theorem State.loadRegs_frame (s : State) (n : Nat) (hn : n ≤ 16) :
    Frame {p | ∃ r : RegIdx, r.val < n ∧ p = .v r} s (s.loadRegs n) := by
  induction n with
  | zero => exact Frame.refl _ s
  | succ n ih =>
    rw [State.loadRegs_succ]
    refine ((ih (by omega)).mono ?_).trans ((frame_setReg _ _ _).mono ?_)
    · rintro p ⟨k, hk, rfl⟩; exact ⟨k, by omega, rfl⟩
    · rintro p rfl; exact ⟨Fin.ofNat 16 n, by simp [Fin.ofNat]; omega, rfl⟩

/-! The ROM copy (R221). -/

theorem State.copyBytes_readMem (s : State) (a : Nat) (bytes : List Byte) (h : a + bytes.length ≤ 4096) (b : Nat) :
    (s.copyBytes a bytes).readMem b = if hb : a ≤ b ∧ b - a < bytes.length then bytes[b - a] else s.readMem b := by
  induction bytes generalizing s a with
  | nil => simp [State.copyBytes]
  | cons v rest ih =>
    simp only [List.length_cons] at h
    rw [State.copyBytes, ih _ _ (by omega), State.readMem_writeMem]
    by_cases hb : b = a
    · subst hb
      rw [dif_neg (by omega), if_pos ⟨rfl, by omega⟩, dif_pos ⟨Nat.le_refl _, by simp⟩]
      simp
    · by_cases hab : a + 1 ≤ b ∧ b - (a + 1) < rest.length
      · have e : b - a = (b - (a + 1)) + 1 := by omega
        rw [dif_pos hab, dif_pos ⟨by omega, by simp only [List.length_cons]; omega⟩]
        simp only [e, List.getElem_cons_succ]
      · rw [dif_neg hab, if_neg (fun h' => hb h'.1), dif_neg (by simp only [List.length_cons]; omega)]

theorem State.copyBytes_frame (s : State) (a : Nat) (bytes : List Byte) :
    Frame (memBlock a bytes.length) s (s.copyBytes a bytes) := by
  induction bytes generalizing s a with
  | nil => exact Frame.refl _ s
  | cons v rest ih =>
    refine ((frame_writeMem s a v).mono ?_).trans ((ih (s.writeMem a v) (a + 1)).mono ?_)
    · rintro p rfl; exact ⟨0, by simp, rfl⟩
    · rintro p ⟨k, hk, rfl⟩; exact ⟨k + 1, by simpa using hk, by congr 1; omega⟩

end Sys2Proof.Machine
end

