-- ==== Sys2Proof/Laws/Draw.lean ====
section
/-! SUPPORT. What drawing a sprite does, cell by cell (R102, R103): the double loop of toggles is one toggle of each
cell of a list without repeats. -/

namespace Sys2Proof.Machine

/-- Toggle every cell of a list in its order, noting collisions. -/
def drawCells (l : List (Fin 64 × Fin 32)) (p : Canvas) : Canvas := l.foldl (fun q c => drawCell c.1 c.2 q) p

/-- The cells under the set bits of a sprite, in the order they are drawn. -/
def State.spriteCells (s : State) (x0 y0 : Byte) (n : Nat) : List (Fin 64 × Fin 32) :=
  (List.range n).flatMap (fun r =>
    ((List.range 8).filter (spriteBit (s.readMem (s.i.toNat + r)))).map (fun c => (column x0 c, displayRow y0 r)))

theorem drawCells_spec (l : List (Fin 64 × Fin 32)) (hl : l.Nodup) (p : Canvas) :
    (∀ x y, (drawCells l p).1.cell x y = (p.1.cell x y ^^ decide ((x, y) ∈ l))) ∧
    ((drawCells l p).2 = true ↔ p.2 = true ∨ ∃ c ∈ l, p.1.cell c.1 c.2 = true) := by
  induction l generalizing p with
  | nil => simp [drawCells]
  | cons c rest ih =>
    obtain ⟨hc, hrest⟩ := List.nodup_cons.mp hl
    have ⟨h1, h2⟩ := ih hrest (drawCell c.1 c.2 p)
    have e : drawCells (c :: rest) p = drawCells rest (drawCell c.1 c.2 p) := rfl
    have tog : ∀ x y, (drawCell c.1 c.2 p).1.cell x y = if (x, y) = c then !p.1.cell x y else p.1.cell x y := by
      intro x y
      rw [drawCell, Display.toggle_cell]
      by_cases h : (x, y) = c
      · subst h; simp
      · rw [if_neg h, if_neg (fun h' => h (Prod.ext h'.1 h'.2))]
    constructor
    · intro x y
      rw [e, h1, tog]
      by_cases h : (x, y) = c
      · simp [h, hc]
      · simp [h]
    · rw [e, h2]
      simp only [List.exists_mem_cons_iff, drawCell, Bool.or_eq_true, or_assoc]
      refine or_congr Iff.rfl (or_congr Iff.rfl ?_)
      refine exists_congr (fun d => and_congr_right (fun hd => ?_))
      have hdc : d ≠ c := fun h => hc (h ▸ hd)
      have := tog d.1 d.2
      rw [drawCell] at this
      simp only at this
      rw [this, if_neg (by simpa using hdc)]

theorem drawRow_eq (x0 : Byte) (y : Fin 32) (b : Byte) (p : Canvas) :
    drawRow x0 y b p = drawCells (((List.range 8).filter (spriteBit b)).map (fun c => (column x0 c, y))) p := by
  simp only [drawRow, drawCells, List.foldl_map, List.foldl_filter]

theorem State.drawSprite_eq (s : State) (x0 y0 : Byte) (n : Nat) :
    s.drawSprite x0 y0 n = drawCells (s.spriteCells x0 y0 n) (s.disp, false) := by
  simp only [State.drawSprite, State.spriteCells, drawRow_eq, drawCells, List.foldl_flatMap]

/-- No draw toggles one cell twice: 8 columns are fewer than 64 and 15 rows fewer than 32 (R102). -/
theorem State.spriteCells_nodup (s : State) (x0 y0 : Byte) (n : Nat) (hn : n ≤ 32) :
    (s.spriteCells x0 y0 n).Nodup := by
  rw [State.spriteCells, List.nodup_flatMap]
  constructor
  · intro r _
    refine List.Nodup.map_on ?_ ((List.nodup_range).filter _)
    intro a ha b hb h
    have ha' : a < 8 := by simpa using (List.mem_filter.mp ha).1
    have hb' : b < 8 := by simpa using (List.mem_filter.mp hb).1
    have := congrArg (fun q => q.1.val) h
    simp only [column, Fin.ofNat] at this
    omega
  · refine List.Pairwise.imp_of_mem ?_ (List.nodup_range (n := n))
    intro a b ha hb hab
    rw [List.mem_range] at ha hb
    simp only [Function.onFun]
    intro q hq hq'
    obtain ⟨c, _, rfl⟩ := List.mem_map.mp hq
    obtain ⟨d, _, h⟩ := List.mem_map.mp hq'
    have := congrArg (fun q => q.2.val) h
    simp only [displayRow, Fin.ofNat] at this
    omega

theorem State.mem_spriteCells (s : State) (x0 y0 : Byte) (n : Nat) (cx : Fin 64) (cy : Fin 32) :
    (cx, cy) ∈ s.spriteCells x0 y0 n ↔
      ∃ r, r < n ∧ ∃ c, c < 8 ∧ cx.val = (x0.toNat + c) % 64 ∧ cy.val = (y0.toNat + r) % 32 ∧
        (s.readMem (s.i.toNat + r)).getLsbD (7 - c) = true := by
  simp only [State.spriteCells, List.mem_flatMap, List.mem_range, List.mem_map, List.mem_filter, spriteBit,
    Prod.mk.injEq, column, displayRow, Fin.ext_iff, Fin.ofNat]
  constructor
  · rintro ⟨r, hr, c, ⟨hc, hb⟩, hx, hy⟩
    exact ⟨r, hr, c, hc, hx.symm, hy.symm, hb⟩
  · rintro ⟨r, hr, c, hc, hx, hy, hb⟩
    exact ⟨r, hr, c, ⟨hc, hb⟩, hx.symm, hy.symm⟩

/-- The display after a draw, cell by cell, and the collision (R102). -/
theorem State.drawSprite_spec (s : State) (x y : RegIdx) (n : Nibble) :
    (∀ cx cy, (s.drawSprite (s.reg x) (s.reg y) n.toNat).1.cell cx cy = true ↔
      ¬ (s.disp.cell cx cy = true ↔ Covered s x y n cx cy)) ∧
    ((s.drawSprite (s.reg x) (s.reg y) n.toNat).2 = true ↔
      ∃ cx cy, Covered s x y n cx cy ∧ s.disp.cell cx cy = true) := by
  have hn : n.toNat ≤ 32 := by have := n.isLt; omega
  have ⟨h1, h2⟩ := drawCells_spec _ (s.spriteCells_nodup (s.reg x) (s.reg y) n.toNat hn) (s.disp, false)
  rw [State.drawSprite_eq]
  constructor
  · intro cx cy
    rw [h1, show Covered s x y n cx cy ↔ (cx, cy) ∈ s.spriteCells (s.reg x) (s.reg y) n.toNat from
      (s.mem_spriteCells _ _ _ cx cy).symm]
    by_cases h : (cx, cy) ∈ s.spriteCells (s.reg x) (s.reg y) n.toNat <;> cases s.disp.cell cx cy <;> simp [h]
  · rw [h2]
    simp only [Bool.false_eq_true, false_or, Prod.exists]
    exact exists_congr (fun cx => exists_congr (fun cy => and_congr_left (fun _ => s.mem_spriteCells _ _ _ cx cy)))

end Sys2Proof.Machine
end

