-- ==== Sys2Proof/Laws/PerInstr.lean ====
section
/-! SUPPORT. Statements made per instruction. `EncodesLegal`: an instruction's encoding is none of R77's illegal words. -/

namespace Sys2Proof

def Laws.EncodesLegal.Statement (i : Instr) : Prop := Word.legal (encode i) = true

/-- The groups whose second, third and fourth nibbles are all operands hold no illegal word. -/
theorem Laws.legal_of_group (w : Word) (h : w.toNat / 4096 ∈ [1, 2, 3, 4, 6, 7, 10, 11, 12, 13]) : w.legal = true := by
  simp only [List.mem_cons, List.not_mem_nil, or_false] at h
  rcases h with h | h | h | h | h | h | h | h | h | h <;> simp [Word.legal, h]

/-- A group of R77's table whose fourth nibble is the sub-opcode. -/
theorem Laws.legal_of_fourth (w : Word) (h : w.toNat / 4096 = 8 ∧ (w.toNat % 16 ≤ 7 ∨ w.toNat % 16 = 14) ∨
    (w.toNat / 4096 = 5 ∨ w.toNat / 4096 = 9) ∧ w.toNat % 16 = 0) : w.legal = true := by
  rcases h with ⟨h, h' | h'⟩ | ⟨h | h, h'⟩ <;> simp [Word.legal, h, h']

/-- A group of R77's table whose third and fourth nibbles are the sub-opcode. -/
theorem Laws.legal_of_low (w : Word) (h : w.toNat / 4096 = 14 ∧ w.toNat % 256 ∈ [0x9E, 0xA1] ∨
    w.toNat / 4096 = 15 ∧ w.toNat % 256 ∈ [0x07, 0x0A, 0x15, 0x18, 0x1E, 0x29, 0x33, 0x55, 0x65]) :
    w.legal = true := by
  rcases h with ⟨h, h'⟩ | ⟨h, h'⟩
  · simp only [List.mem_cons, List.not_mem_nil, or_false] at h'
    rcases h' with h' | h' <;> simp [Word.legal, h, h']
  · simpa [Word.legal, h] using h'

theorem Laws.EncodesLegal.cls0000 : Laws.EncodesLegal.Statement (.cls0000) := rfl

theorem Laws.EncodesLegal.cls00E0 : Laws.EncodesLegal.Statement (.cls00E0) := rfl

theorem Laws.EncodesLegal.ret : Laws.EncodesLegal.Statement (.ret) := rfl

theorem Laws.EncodesLegal.jp (nnn : Addr12) : Laws.EncodesLegal.Statement (.jp nnn) :=
  Laws.legal_of_group _ (by rw [encode, div_nnn]; decide)

theorem Laws.EncodesLegal.call (nnn : Addr12) : Laws.EncodesLegal.Statement (.call nnn) :=
  Laws.legal_of_group _ (by rw [encode, div_nnn]; decide)

theorem Laws.EncodesLegal.seImm (x : RegIdx) (nn : Byte) : Laws.EncodesLegal.Statement (.seImm x nn) :=
  Laws.legal_of_group _ (by rw [encode, div_xnn]; decide)

theorem Laws.EncodesLegal.sneImm (x : RegIdx) (nn : Byte) : Laws.EncodesLegal.Statement (.sneImm x nn) :=
  Laws.legal_of_group _ (by rw [encode, div_xnn]; decide)

theorem Laws.EncodesLegal.seReg (x y : RegIdx) : Laws.EncodesLegal.Statement (.seReg x y) :=
  Laws.legal_of_fourth _ (by rw [encode, div_xyn, mod_xyn]; decide)

theorem Laws.EncodesLegal.ldImm (x : RegIdx) (nn : Byte) : Laws.EncodesLegal.Statement (.ldImm x nn) :=
  Laws.legal_of_group _ (by rw [encode, div_xnn]; decide)

theorem Laws.EncodesLegal.addImm (x : RegIdx) (nn : Byte) : Laws.EncodesLegal.Statement (.addImm x nn) :=
  Laws.legal_of_group _ (by rw [encode, div_xnn]; decide)

theorem Laws.EncodesLegal.ldReg (x y : RegIdx) : Laws.EncodesLegal.Statement (.ldReg x y) :=
  Laws.legal_of_fourth _ (by rw [encode, div_xyn, mod_xyn]; decide)

theorem Laws.EncodesLegal.orReg (x y : RegIdx) : Laws.EncodesLegal.Statement (.orReg x y) :=
  Laws.legal_of_fourth _ (by rw [encode, div_xyn, mod_xyn]; decide)

theorem Laws.EncodesLegal.andReg (x y : RegIdx) : Laws.EncodesLegal.Statement (.andReg x y) :=
  Laws.legal_of_fourth _ (by rw [encode, div_xyn, mod_xyn]; decide)

theorem Laws.EncodesLegal.xorReg (x y : RegIdx) : Laws.EncodesLegal.Statement (.xorReg x y) :=
  Laws.legal_of_fourth _ (by rw [encode, div_xyn, mod_xyn]; decide)

theorem Laws.EncodesLegal.addReg (x y : RegIdx) : Laws.EncodesLegal.Statement (.addReg x y) :=
  Laws.legal_of_fourth _ (by rw [encode, div_xyn, mod_xyn]; decide)

theorem Laws.EncodesLegal.subReg (x y : RegIdx) : Laws.EncodesLegal.Statement (.subReg x y) :=
  Laws.legal_of_fourth _ (by rw [encode, div_xyn, mod_xyn]; decide)

theorem Laws.EncodesLegal.shr (x y : RegIdx) : Laws.EncodesLegal.Statement (.shr x y) :=
  Laws.legal_of_fourth _ (by rw [encode, div_xyn, mod_xyn]; decide)

theorem Laws.EncodesLegal.subn (x y : RegIdx) : Laws.EncodesLegal.Statement (.subn x y) :=
  Laws.legal_of_fourth _ (by rw [encode, div_xyn, mod_xyn]; decide)

theorem Laws.EncodesLegal.shl (x y : RegIdx) : Laws.EncodesLegal.Statement (.shl x y) :=
  Laws.legal_of_fourth _ (by rw [encode, div_xyn, mod_xyn]; decide)

theorem Laws.EncodesLegal.sneReg (x y : RegIdx) : Laws.EncodesLegal.Statement (.sneReg x y) :=
  Laws.legal_of_fourth _ (by rw [encode, div_xyn, mod_xyn]; decide)

theorem Laws.EncodesLegal.ldI (nnn : Addr12) : Laws.EncodesLegal.Statement (.ldI nnn) :=
  Laws.legal_of_group _ (by rw [encode, div_nnn]; decide)

theorem Laws.EncodesLegal.jpV0 (nnn : Addr12) : Laws.EncodesLegal.Statement (.jpV0 nnn) :=
  Laws.legal_of_group _ (by rw [encode, div_nnn]; decide)

theorem Laws.EncodesLegal.rnd (x : RegIdx) (nn : Byte) : Laws.EncodesLegal.Statement (.rnd x nn) :=
  Laws.legal_of_group _ (by rw [encode, div_xnn]; decide)

theorem Laws.EncodesLegal.drw (x y : RegIdx) (n : Nibble) : Laws.EncodesLegal.Statement (.drw x y n) :=
  Laws.legal_of_group _ (by rw [encode, div_xyn]; decide)

theorem Laws.EncodesLegal.skp (x : RegIdx) : Laws.EncodesLegal.Statement (.skp x) :=
  Laws.legal_of_low _ (by rw [encode, div_xnn, mod_xnn]; decide)

theorem Laws.EncodesLegal.sknp (x : RegIdx) : Laws.EncodesLegal.Statement (.sknp x) :=
  Laws.legal_of_low _ (by rw [encode, div_xnn, mod_xnn]; decide)

theorem Laws.EncodesLegal.ldVxDt (x : RegIdx) : Laws.EncodesLegal.Statement (.ldVxDt x) :=
  Laws.legal_of_low _ (by rw [encode, div_xnn, mod_xnn]; decide)

theorem Laws.EncodesLegal.ldVxK (x : RegIdx) : Laws.EncodesLegal.Statement (.ldVxK x) :=
  Laws.legal_of_low _ (by rw [encode, div_xnn, mod_xnn]; decide)

theorem Laws.EncodesLegal.ldDtVx (x : RegIdx) : Laws.EncodesLegal.Statement (.ldDtVx x) :=
  Laws.legal_of_low _ (by rw [encode, div_xnn, mod_xnn]; decide)

theorem Laws.EncodesLegal.ldStVx (x : RegIdx) : Laws.EncodesLegal.Statement (.ldStVx x) :=
  Laws.legal_of_low _ (by rw [encode, div_xnn, mod_xnn]; decide)

theorem Laws.EncodesLegal.addI (x : RegIdx) : Laws.EncodesLegal.Statement (.addI x) :=
  Laws.legal_of_low _ (by rw [encode, div_xnn, mod_xnn]; decide)

theorem Laws.EncodesLegal.ldF (x : RegIdx) : Laws.EncodesLegal.Statement (.ldF x) :=
  Laws.legal_of_low _ (by rw [encode, div_xnn, mod_xnn]; decide)

theorem Laws.EncodesLegal.ldB (x : RegIdx) : Laws.EncodesLegal.Statement (.ldB x) :=
  Laws.legal_of_low _ (by rw [encode, div_xnn, mod_xnn]; decide)

theorem Laws.EncodesLegal.ldMemVx (x : RegIdx) : Laws.EncodesLegal.Statement (.ldMemVx x) :=
  Laws.legal_of_low _ (by rw [encode, div_xnn, mod_xnn]; decide)

theorem Laws.EncodesLegal.ldVxMem (x : RegIdx) : Laws.EncodesLegal.Statement (.ldVxMem x) :=
  Laws.legal_of_low _ (by rw [encode, div_xnn, mod_xnn]; decide)

end Sys2Proof
end

