-- ==== Sys2Proof/Laws/Step.lean ====
section
/-! SUPPORT. Everything a step can do, said once (R80). -/

namespace Sys2Proof.Machine

theorem State.fetch_eq (s : State) :
    s.fetch = if s.pc.toNat ≤ 4094 then .ok (s.wordAt s.pc.toNat)
      else .error (.memoryOutOfRange (max s.pc.toNat 4096)) := by
  simp only [State.fetch, firstOutOfRange_eq]
  by_cases h : s.pc.toNat ≤ 4094
  · rw [if_pos (by omega), if_pos h]
  · rw [if_neg (by omega), if_neg h]

theorem step_of_faulted (s : State) (f : FaultRecord) (h : s.status = .faulted f) : step s = .next s := by
  simp only [step, h]

theorem step_of_fetch_fault (s : State) (h : s.status = .running) (hp : 4094 < s.pc.toNat) :
    step s = .next (s.takeFault s.pc (.memoryOutOfRange (max s.pc.toNat 4096))) := by
  simp only [step, h, State.fetch_eq, if_neg (Nat.not_le.mpr hp)]

theorem step_of_illegal (s : State) (h : s.status = .running) (hp : s.pc.toNat ≤ 4094)
    (hd : decode (s.wordAt s.pc.toNat) = none) :
    step s = .next (s.takeFault s.pc (.illegalInstruction (s.wordAt s.pc.toNat))) := by
  simp only [step, h, State.fetch_eq, if_pos hp, hd]

theorem step_of_decode (s : State) (i : Instr) (h : s.status = .running) (hp : s.pc.toNat ≤ 4094)
    (hd : decode (s.wordAt s.pc.toNat) = some i) : step s = exec i s.advance := by
  simp only [step, h, State.fetch_eq, if_pos hp, hd]

/-- What a step that answers `next t` did: nothing on a faulted core, a fault of the fetch, a fault of the decode, or
the decoded instruction executed. -/
theorem step_cases {s t : State} (h : step s = .next t) :
    (∃ f, s.status = .faulted f ∧ t = s) ∨
    (s.status = .running ∧ 4094 < s.pc.toNat ∧ t = s.takeFault s.pc (.memoryOutOfRange (max s.pc.toNat 4096))) ∨
    (s.status = .running ∧ s.pc.toNat ≤ 4094 ∧ decode (s.wordAt s.pc.toNat) = none ∧
      t = s.takeFault s.pc (.illegalInstruction (s.wordAt s.pc.toNat))) ∨
    (s.status = .running ∧ s.pc.toNat ≤ 4094 ∧ ∃ i, decode (s.wordAt s.pc.toNat) = some i ∧
      exec i s.advance = .next t) := by
  cases hs : s.status with
  | faulted f => rw [step_of_faulted s f hs] at h; exact .inl ⟨f, rfl, by cases h; rfl⟩
  | running =>
    by_cases hp : s.pc.toNat ≤ 4094
    · cases hd : decode (s.wordAt s.pc.toNat) with
      | none => rw [step_of_illegal s hs hp hd] at h; exact .inr (.inr (.inl ⟨rfl, hp, rfl, by cases h; rfl⟩))
      | some i => rw [step_of_decode s i hs hp hd] at h; exact .inr (.inr (.inr ⟨rfl, hp, i, rfl, h⟩))
    · rw [step_of_fetch_fault s hs (by omega)] at h
      exact .inr (.inl ⟨rfl, by omega, by cases h; rfl⟩)

/-- `A + 2 − 2 = A`: a fault raised inside an instruction is taken at the address the fetch read. -/
theorem State.advance_pc_sub (s : State) : s.advance.pc - 2 = s.pc := by
  rw [State.advance_pc, BitVec.add_sub_cancel]

end Sys2Proof.Machine
end

