-- ==== Sys2Proof/Tests/Slice0.lean ====
section
/-! SUPPORT. The model's own tests: the checks of WellFormed, one word per pattern of R75, the vectors of
spec/95_test_vectors.md (L1, L2), each one step from the reset state, and a witness for every statement that has
hypotheses. -/

-- One proof after another: many kernel evaluations side by side open more threads than the memory limit allows.
set_option Elab.async false

namespace Sys2Proof.Tests

open Sys2Proof.Machine

/-- The outcome is a next state that meets `p`. -/
def after (r : Result) (p : State → Bool) : Bool :=
  match r with
  | .next t => p t
  | _ => false

/-- One step on the state with the word at its PC. -/
def run (w : Nat) (s : State) (p : State → Bool) : Bool := after (step (s.withFetchWord 16 w)) p

/-- The reset state with some registers set; PC = 0x200. -/
def regs (l : List (RegIdx × Byte)) : State := l.foldl (fun s c => s.setReg c.1 c.2) State.reset

/-- The reset state with I at 0x300 and bytes stored from there on. -/
def at300 (bytes : List Byte) : State := (State.reset.setI 0x300).copyBytes 0x300 bytes

/-- The state with the k-th key held. -/
def hold (s : State) (k : Fin 16) : State := s.setKeys (s.key.set k.val true)

/-- The state with `n` entries in use, all of them `w`. -/
def nested (s : State) (n : Fin 17) (w : Word) : State := { s with sp := n, stack := Vector.replicate 16 w }

/-- How many cells are ON. -/
def cellsOn (s : State) : Nat := s.readDisplay.countP id

/-! WellFormed: what each check refuses (R71, R77, R221). -/

theorem test_fields_disagree : Fields.wellFormed ⟨1, 2, 3, 4, 0x35, 0x234⟩ = false ∧
    Fields.wellFormed ⟨1, 2, 3, 4, 0x34, 0x235⟩ = false ∧ Fields.wellFormed ⟨1, 2, 3, 4, 0x34, 0x234⟩ = true := by decide
theorem test_illegal_0_group : [0x0001, 0x00DF, 0x00E1, 0x00ED, 0x00EF, 0x0FFF].all (fun w => !Word.legal w) = true := by
  decide
theorem test_illegal_5_8_9_groups :
    [0x5AB1, 0x8AB8, 0x8ABD, 0x8ABF, 0x9AB1].all (fun w => !Word.legal w) = true := by decide
theorem test_illegal_E_F_groups :
    [0xEA9F, 0xEAA0, 0xFA00, 0xFA08, 0xFA30, 0xFA56, 0xFA75, 0xFAFF].all (fun w => !Word.legal w) = true := by decide
theorem test_rom_too_long : romFits (List.replicate 3585 0) = false ∧ romFits (List.replicate 3584 0) = true := by
  decide +kernel

/-! Decoding: one word per pattern, written out from R75 (L2-1), and its encoding. -/

theorem test_decode_control :
    Encodes 0x0000 .cls0000 ∧ Encodes 0x00E0 .cls00E0 ∧ Encodes 0x00EE .ret ∧ Encodes 0x1ABC (.jp 0xABC) ∧
    Encodes 0x2ABC (.call 0xABC) ∧ Encodes 0x3A12 (.seImm 0xA 0x12) ∧ Encodes 0x4A12 (.sneImm 0xA 0x12) ∧
    Encodes 0x5AB0 (.seReg 0xA 0xB) ∧ Encodes 0x6A12 (.ldImm 0xA 0x12) ∧ Encodes 0x7A12 (.addImm 0xA 0x12) := by
  simp only [Encodes]; decide
theorem test_decode_alu :
    Encodes 0x8AB0 (.ldReg 0xA 0xB) ∧ Encodes 0x8AB1 (.orReg 0xA 0xB) ∧ Encodes 0x8AB2 (.andReg 0xA 0xB) ∧
    Encodes 0x8AB3 (.xorReg 0xA 0xB) ∧ Encodes 0x8AB4 (.addReg 0xA 0xB) ∧ Encodes 0x8AB5 (.subReg 0xA 0xB) ∧
    Encodes 0x8AB6 (.shr 0xA 0xB) ∧ Encodes 0x8AB7 (.subn 0xA 0xB) ∧ Encodes 0x8ABE (.shl 0xA 0xB) := by
  simp only [Encodes]; decide
theorem test_decode_middle :
    Encodes 0x9AB0 (.sneReg 0xA 0xB) ∧ Encodes 0xAABC (.ldI 0xABC) ∧ Encodes 0xBABC (.jpV0 0xABC) ∧
    Encodes 0xCA12 (.rnd 0xA 0x12) ∧ Encodes 0xDAB5 (.drw 0xA 0xB 5) ∧ Encodes 0xEA9E (.skp 0xA) ∧
    Encodes 0xEAA1 (.sknp 0xA) := by
  simp only [Encodes]; decide
theorem test_decode_misc :
    Encodes 0xFA07 (.ldVxDt 0xA) ∧ Encodes 0xFA0A (.ldVxK 0xA) ∧ Encodes 0xFA15 (.ldDtVx 0xA) ∧
    Encodes 0xFA18 (.ldStVx 0xA) ∧ Encodes 0xFA1E (.addI 0xA) ∧ Encodes 0xFA29 (.ldF 0xA) ∧ Encodes 0xFA33 (.ldB 0xA) ∧
    Encodes 0xFA55 (.ldMemVx 0xA) ∧ Encodes 0xFA65 (.ldVxMem 0xA) := by
  simp only [Encodes]; decide
theorem test_decode_illegal :
    [0x0001, 0x00E1, 0x00EF, 0x0ABC, 0x5AB1, 0x8AB8, 0x8ABF, 0x9AB1, 0xEA9F, 0xFA00, 0xFA75].all
      (fun w => decide (decode w = none)) = true := by decide
theorem test_decode_bytes : decodeBytes [0xD1, 0x23, 0x77] = .ok (.drw 1 2 3, [0x77]) ∧
    decodeBytes [0xD1] = .error .truncated ∧ decodeBytes [0x00, 0xE1] = .error (.illegalWord 0x00E1) := by decide
theorem test_table_word : decodeTableWord 16 0x6A2F = some (.ldImm 0xA 0x2F) := by decide

/-! Display (L2-2). -/

theorem test_cls : run 0x00E0 ((regs [(15, 7)]).setDisp (Display.off.toggle 10 10))
    (fun t => cellsOn t == 0 && t.reg 15 == 7 && t.pc == 0x202) = true := by decide +kernel
theorem test_cls_0000 : run 0x0000 (State.reset.setDisp (Display.off.toggle 10 10))
    (fun t => cellsOn t == 0 && t.pc == 0x202) = true := by decide +kernel
theorem test_drw_wraps_both_edges : run 0xD121 (((at300 [0x80]).setReg 1 63).setReg 2 63)
    (fun t => t.disp.cell 63 31 && cellsOn t == 1 && t.reg 15 == 0) = true := by decide +kernel
theorem test_drw_collision : run 0xD011 ((at300 [0xC0]).setDisp (Display.off.toggle 0 0))
    (fun t => t.disp.cell 1 0 && cellsOn t == 1 && t.reg 15 == 1) = true := by decide +kernel

/-! Control flow (L2-3). -/

theorem test_jp : run 0x1ABC State.reset (fun t => t.pc == 0xABC) = true := by decide +kernel
theorem test_call : run 0x2300 (State.reset.setPc 0x204)
    (fun t => t.entry 0 == 0x206 && t.sp == 1 && t.pc == 0x300) = true := by decide +kernel
theorem test_call_overflow : run 0x2300 (nested (State.reset.setPc 0x204) 16 0x202)
    (fun t => t.status == .faulted ⟨.stackOverflow, 0x204⟩ && t.sp == 16 && t.pc == 0x204) = true := by decide +kernel
theorem test_ret : run 0x00EE (nested (State.reset.setPc 0x304) 1 0x206)
    (fun t => t.pc == 0x206 && t.sp == 0 && t.entry 0 == 0x206) = true := by decide +kernel
theorem test_ret_underflow : run 0x00EE (State.reset.setPc 0x304)
    (fun t => t.status == .faulted ⟨.stackUnderflow, 0x304⟩ && t.pc == 0x304) = true := by decide +kernel
theorem test_se_imm : run 0x3342 (regs [(3, 0x42)]) (fun t => t.pc == 0x204) = true := by decide +kernel
theorem test_se_imm_no_skip : run 0x3342 (regs [(3, 0x41)]) (fun t => t.pc == 0x202) = true := by decide +kernel
theorem test_sne_imm : run 0x4342 (regs [(3, 0x41)]) (fun t => t.pc == 0x204) = true := by decide +kernel
theorem test_sne_imm_no_skip : run 0x4342 (regs [(3, 0x42)]) (fun t => t.pc == 0x202) = true := by decide +kernel
theorem test_se_reg : run 0x5120 (regs [(1, 7), (2, 7)]) (fun t => t.pc == 0x204) = true := by decide +kernel
theorem test_sne_reg : run 0x9120 (regs [(1, 7), (2, 8)]) (fun t => t.pc == 0x204) = true := by decide +kernel
theorem test_sne_reg_same : run 0x9110 (regs [(1, 7)]) (fun t => t.pc == 0x202) = true := by decide +kernel
theorem test_jp_v0 : run 0xB520 (regs [(0, 0x10), (5, 0x99)]) (fun t => t.pc == 0x530) = true := by decide +kernel
theorem test_jp_v0_unmasked : run 0xBFFF (regs [(0, 0xFF)]) (fun t => t.pc == 0x10FE) = true := by decide +kernel

/-! Register and arithmetic (L1, L2-4). -/

theorem test_ld_imm : run 0x6A2F State.reset (fun t => t.reg 0xA == 0x2F) = true := by decide +kernel
theorem test_add_imm : run 0x7002 (regs [(0, 0xFF), (15, 9)]) (fun t => t.reg 0 == 1 && t.reg 15 == 9) = true := by
  decide +kernel
theorem test_ld_reg : run 0x8120 (regs [(2, 9)]) (fun t => t.reg 1 == 9) = true := by decide +kernel
theorem test_or : run 0x8121 (regs [(1, 0x0F), (2, 0xF0), (15, 3)]) (fun t => t.reg 1 == 0xFF && t.reg 15 == 3) = true := by
  decide +kernel
theorem test_and : run 0x8122 (regs [(1, 0x3C), (2, 0x0F)]) (fun t => t.reg 1 == 0x0C) = true := by decide +kernel
theorem test_xor : run 0x8123 (regs [(1, 0xFF), (2, 0x0F)]) (fun t => t.reg 1 == 0xF0) = true := by decide +kernel
theorem test_add_carries : run 0x8124 (regs [(1, 200), (2, 100)]) (fun t => t.reg 1 == 44 && t.reg 15 == 1) = true := by
  decide +kernel
theorem test_add_to_flag : run 0x8F24 (regs [(15, 0x80), (2, 0x90)]) (fun t => t.reg 15 == 1) = true := by decide +kernel
theorem test_sub_borrows : run 0x8125 (regs [(1, 10), (2, 20)]) (fun t => t.reg 1 == 246 && t.reg 15 == 0) = true := by
  decide +kernel
theorem test_sub_from_flag : run 0x8F25 (regs [(15, 5), (2, 3)]) (fun t => t.reg 15 == 1) = true := by decide +kernel
theorem test_subn : run 0x8127 (regs [(1, 0x0A), (2, 0x14)]) (fun t => t.reg 1 == 0x0A && t.reg 15 == 1) = true := by
  decide +kernel
theorem test_subn_borrows : run 0x8127 (regs [(1, 0x14), (2, 0x0A)]) (fun t => t.reg 1 == 0xF6 && t.reg 15 == 0) = true := by
  decide +kernel
theorem test_shr : run 0x8126 (regs [(1, 0xB1)]) (fun t => t.reg 1 == 0x58 && t.reg 15 == 1) = true := by decide +kernel
theorem test_shr_flag : run 0x8F06 (regs [(15, 3)]) (fun t => t.reg 15 == 0) = true := by decide +kernel
theorem test_shl : run 0x810E (regs [(1, 0xB1)]) (fun t => t.reg 1 == 0x62 && t.reg 15 == 1) = true := by decide +kernel
theorem test_shl_flag : run 0x8F0E (regs [(15, 0x80)]) (fun t => t.reg 15 == 2) = true := by decide +kernel

/-- "any draw": C300 gives 0 (L2-4), whatever the free value is. -/
theorem test_rnd_masked : ∃ t, exec (.rnd 3 0) (regs [(3, 0x77)]) = .next t ∧ t.reg 3 = 0 ∧ t.draws = 1 :=
  ⟨_, rfl, by simp, rfl⟩

/-! Index and memory (L2-5). -/

theorem test_ld_i : run 0xA300 State.reset (fun t => t.i == 0x300) = true := by decide +kernel
theorem test_add_i_wraps : run 0xF21E ((regs [(2, 1)]).setI 0xFFFF) (fun t => t.i == 0 && t.reg 15 == 0) = true := by
  decide +kernel
theorem test_ld_f : run 0xF129 (regs [(1, 0x0F)]) (fun t => t.i == 0x4B) = true := by decide +kernel
theorem test_ld_f_unmasked : run 0xF129 (regs [(1, 0xFF)]) (fun t => t.i == 0x4FB) = true := by decide +kernel
theorem test_bcd : run 0xF033 ((regs [(0, 0xFE)]).setI 0x300)
    (fun t => t.readMem 0x300 == 2 && t.readMem 0x301 == 5 && t.readMem 0x302 == 4) = true := by decide +kernel
theorem test_bcd_out_of_range : run 0xF033 ((regs [(0, 0x0A)]).setI 0xFFE)
    (fun t => t.status == .faulted ⟨.memoryOutOfRange 0x1000, 0x200⟩ && t.pc == 0x200 && t.readMem 0xFFF == 0) = true := by
  decide +kernel
theorem test_store_regs : run 0xF155 ((regs [(0, 1), (1, 2), (2, 3)]).setI 0x300)
    (fun t => t.readMem 0x300 == 1 && t.readMem 0x301 == 2 && t.readMem 0x302 == 0 && t.i == 0x300) = true := by
  decide +kernel
theorem test_store_over_font : run 0xF055 (regs [(0, 0xAA)]) (fun t => t.readMem 0 == 0xAA && t.readMem 1 == 0x90) = true := by
  decide +kernel
theorem test_load_regs : run 0xF265 (at300 [2, 5, 4])
    (fun t => t.reg 0 == 2 && t.reg 1 == 5 && t.reg 2 == 4 && t.i == 0x300) = true := by decide +kernel
theorem test_load_out_of_range : run 0xF065 (State.reset.setI 0x1000)
    (fun t => t.status == .faulted ⟨.memoryOutOfRange 0x1000, 0x200⟩) = true := by decide +kernel

/-! Keys and timers (L2-6). -/

theorem test_skp : run 0xE49E (hold (regs [(4, 7)]) 7) (fun t => t.pc == 0x204) = true := by decide +kernel
theorem test_skp_bad_key : run 0xE49E (regs [(4, 0x10)])
    (fun t => t.status == .faulted ⟨.keyIndexOutOfRange 0x10, 0x200⟩ && t.pc == 0x200) = true := by decide +kernel
theorem test_sknp : run 0xE4A1 (regs [(4, 7)]) (fun t => t.pc == 0x204) = true := by decide +kernel
theorem test_sknp_held : run 0xE4A1 (hold (regs [(4, 7)]) 7) (fun t => t.pc == 0x202) = true := by decide +kernel
theorem test_read_dt : run 0xF507 (State.reset.setDt 0x3C) (fun t => t.reg 5 == 0x3C) = true := by decide +kernel
theorem test_wait_none : run 0xF20A (regs [(2, 9)]) (fun t => t.pc == 0x200 && t.reg 2 == 9) = true := by decide +kernel
theorem test_wait_least : run 0xF20A (hold (hold State.reset 9) 3) (fun t => t.pc == 0x202 && t.reg 2 == 3) = true := by
  decide +kernel
theorem test_write_dt : run 0xF015 (regs [(0, 5)]) (fun t => t.dt == 5) = true := by decide +kernel
theorem test_write_st : run 0xF118 (regs [(1, 0x1E)]) (fun t => t.st == 0x1E && t.toneActive) = true := by decide +kernel

/-! The step, the clock, reset and the ROM load (L2-1, L2-3, L2-7, L2-8). -/

theorem test_illegal_word : run 0x0001 State.reset
    (fun t => t.status == .faulted ⟨.illegalInstruction 1, 0x200⟩ && t.pc == 0x200) = true := by decide +kernel
theorem test_fetch_out_of_range : after (step (State.reset.setPc 0xFFF))
    (fun t => t.status == .faulted ⟨.memoryOutOfRange 0x1000, 0xFFF⟩ && t.pc == 0xFFF) = true := by decide +kernel
theorem test_odd_pc : run 0x6A2F (State.reset.setPc 0x201) (fun t => t.reg 0xA == 0x2F && t.pc == 0x203) = true := by
  decide +kernel

/-- A `clock` call replies `r` in a state that meets `p`. -/
def clocks (n : Nat) (s : State) (r : ClockReply) (p : State → Bool) : Bool :=
  match clock n s with
  | .next (t, q) => decide (q = r) && p t
  | _ => false

theorem test_clock_ticks : clocks 0 ((State.reset.setDt 5).setSt 2) (.ok true false) (fun t => t.dt == 4 && t.st == 1) = true := by
  decide +kernel
theorem test_clock_stop_tone : clocks 0 (State.reset.setSt 1) (.ok false true) (fun t => t.st == 0) = true := by
  decide +kernel
theorem test_clock_one_tick : clocks 3 ((State.reset.setDt 5).withFetchWord 16 0x1200) (.ok false false)
    (fun t => t.dt == 4 && t.pc == 0x200) = true := by decide +kernel
theorem test_clock_fault : clocks 3 ((State.reset.setDt 5).withFetchWord 16 0x0001)
    (.err ⟨.illegalInstruction 1, 0x200⟩) (fun t => t.dt == 5 && t.pc == 0x200) = true := by decide +kernel
theorem test_load_rom : (State.reset.loadRom [0x12, 0x00]).2 = .ok ∧
    (State.reset.loadRom [0x12, 0x00]).1.readMem 0x200 = 0x12 ∧
    (State.reset.loadRom [0x12, 0x00]).1.readMem 0x201 = 0 := by decide +kernel
theorem test_reset_font : State.reset.readMem 0 = 0xF0 ∧ State.reset.readMem 0x4F = 0x80 ∧ State.reset.readMem 0x50 = 0 ∧
    State.reset.pc = 0x200 := by decide +kernel
theorem test_read_display : ((State.reset.setDisp (Display.off.toggle 5 7)).readDisplay)[5 + 64 * 7]? = some true ∧
    ((State.reset.setDisp (Display.off.toggle 5 7)).readDisplay)[7 + 64 * 5]? = some false := by decide +kernel
theorem test_reset_clears : (((regs [(1, 7)]).takeFault 0x300 .stackOverflow).hostReset).status = .running ∧
    (((regs [(1, 7)]).takeFault 0x300 .stackOverflow).hostReset).reg 1 = 0 := by decide +kernel

/-! Witnesses: for each statement with hypotheses, states and operands that meet them, at the boundary values. -/

/-- The state after a step or an instruction, for the witnesses. -/
def nextOf (s : State) (r : Result) : State :=
  match r with
  | .next t => t
  | _ => s

/-- The last address an instruction can stand at, 4094, with a word there. -/
def atTop : State := (State.reset.setPc 4094).withFetchWord 16 0x6A2F

theorem witness_EncodeOfDecode : decode 0x8FFE = some (.shl 15 15) := by decide
theorem witness_RejectedWordsAreIllegalWords : decode 0x8AB8 = none ∧ Word.legal 0x8AB8 = false := by decide
theorem witness_PatternsAreDisjoint : decodeTable.reverse.Perm decodeTable := List.reverse_perm _
theorem witness_StepRunsDecodedInstruction : Safe atTop ∧ atTop.pc.toNat + 1 = 4095 ∧
    decode (atTop.readMem atTop.pc.toNat ++ atTop.readMem (atTop.pc.toNat + 1)) = some (.ldImm 0xA 0x2F) := by
  unfold Safe; decide +kernel
theorem witness_FetchOutOfRangeFaults : Safe (State.reset.setPc 4095) ∧ (State.reset.setPc 4095).pc.toNat + 1 > 4095 ∧
    Safe (State.reset.setPc 4096) ∧ (State.reset.setPc 4096).pc.toNat > 4095 := by
  unfold Safe; decide +kernel

/-- The illegal word 0x8AB8 at 4094. -/
def illegalAtTop : State := (State.reset.setPc 4094).withFetchWord 16 0x8AB8

theorem witness_IllegalWordFaults : Safe illegalAtTop ∧ illegalAtTop.pc.toNat + 1 ≤ 4095 ∧
    (0x8AB8 : Word) = illegalAtTop.readMem illegalAtTop.pc.toNat ++ illegalAtTop.readMem (illegalAtTop.pc.toNat + 1) ∧
    Word.legal 0x8AB8 = false := by
  unfold Safe; decide +kernel
theorem witness_FaultsArePrecise : Safe illegalAtTop ∧
    step illegalAtTop = .next (illegalAtTop.takeFault 4094 (.illegalInstruction 0x8AB8)) ∧
    ¬ Safe (illegalAtTop.takeFault 4094 (.illegalInstruction 0x8AB8)) := by
  refine ⟨rfl, rfl, ?_⟩; unfold Safe; decide +kernel
theorem witness_FaultsPerInstruction : Safe State.reset ∧
    exec .ret State.reset = .next (State.reset.takeFault 510 .stackUnderflow) ∧
    (State.reset.takeFault 510 .stackUnderflow).status = .faulted ⟨.stackUnderflow, 510⟩ := ⟨rfl, rfl, rfl⟩
theorem witness_ResetState : (illegalAtTop.hostReset = State.construct Config.defaultFont ∨
    ∃ r : State, r.font = Config.defaultFont ∧ illegalAtTop.hostReset = r.hostReset) := .inr ⟨illegalAtTop, rfl, rfl⟩

/-- A faulted state the invariants hold in. -/
def overflowed : State := (nested State.reset 16 0x1000).takeFault 0x10FE .stackOverflow

theorem witness_invariants_with_a_fault : MemoryCanonical overflowed ∧ RecordTrue overflowed ∧ PcBounded overflowed ∧
    step overflowed = .next overflowed := by
  refine ⟨rfl, ?_, ?_, rfl⟩
  · intro f h; cases h; exact ⟨rfl, rfl⟩
  · unfold PcBounded; decide +kernel
theorem witness_invariants_running : MemoryCanonical atTop ∧ RecordTrue atTop ∧ PcBounded atTop ∧
    ∃ t, step atTop = .next t := by
  refine ⟨rfl, ?_, ?_, _, rfl⟩
  · intro f h; cases h
  · unfold PcBounded; decide +kernel
theorem witness_TransactionsKeepInvariants : transact (.clock 0) atTop = .next (atTop.timerTick, .clock (.ok false false)) :=
  rfl

/-- Each clause of `OnlyTheNamedInstructionsWrite`: a step that changes the part it speaks of. -/
theorem witness_OnlyTheNamedInstructionsWrite :
    run 0xF015 (regs [(0, 5)]) (fun t => t.dt != 0) = true ∧ run 0xF018 (regs [(0, 5)]) (fun t => t.st != 0) = true ∧
    run 0xA300 State.reset (fun t => t.i != 0) = true ∧ run 0xF033 (regs []) (fun t => t.readMem 0 != 0xF0) = true ∧
    run 0xD011 (at300 [0x80]) (fun t => t.disp.cell 0 0) = true ∧
    run 0x2300 State.reset (fun t => t.entry 0 != 0 && t.sp != 0) = true ∧
    run 0xC000 State.reset (fun t => t.draws != 0) = true := by decide +kernel
theorem witness_OnlyTheNamedInstructionsWrite_core :
    run 0x6A2F State.reset (fun t => t.reg 0xA != 0) = true ∧
    run 0x8124 (regs [(1, 0xFF), (2, 1)]) (fun t => t.reg 15 != 0) = true ∧
    run 0x1ABC State.reset (fun t => t.pc != 0x202) = true ∧
    run 0x00EE State.reset (fun t => t.status != .running && t.pc == 0x200) = true ∧
    after (step overflowed) (fun t => t.pc == overflowed.pc) = true := by decide +kernel
theorem witness_FrameOfEveryInstruction : ∃ t, exec (.call 0x300) (nested State.reset 15 0) = .next t ∧ Safe t :=
  ⟨_, rfl, rfl⟩
theorem witness_OnlyFlagSettersWriteFlag : ∃ t, exec (.addReg 1 2) (regs [(1, 0xFF), (2, 1)]) = .next t ∧
    t.reg 15 ≠ (regs [(1, 0xFF), (2, 1)]).reg 15 := ⟨_, rfl, by decide +kernel⟩
theorem witness_MemoryHoldsLastWrite : (4095 : Nat) ≤ 4095 ∧ (State.reset.writeMem 4095 7).readMem 4095 = 7 ∧
    (State.reset.writeMem 4096 7).readMem 4096 = 0 ∧ MemoryCanonical (State.reset.writeMem 4095 7) := by
  unfold MemoryCanonical; decide +kernel
theorem witness_DrawSprite_runs : (0 : Nibble).toNat = 0 ∧ (State.reset.setI 0xFFFF).i.toNat + (15 : Nibble).toNat > 4096 ∧
    (State.reset.setI 4081).i.toNat + (15 : Nibble).toNat ≤ 4096 := by decide
theorem witness_DrawSprite_faults : 1 ≤ (15 : Nibble).toNat ∧ (State.reset.setI 4082).i.toNat + (15 : Nibble).toNat - 1 > 4095 := by
  decide

/-- DISP[0][0] ON and a sprite byte 0xC0 at 0x300. -/
def oneOn : State := (at300 [0xC0]).setDisp (Display.off.toggle 0 0)

theorem witness_DrawSprite_collision : Covered oneOn 0 0 1 0 0 ∧ oneOn.disp.cell 0 0 = true :=
  ⟨⟨0, by decide, 0, by decide, by decide +kernel, by decide +kernel, by decide +kernel⟩, by decide +kernel⟩
theorem witness_DrawSprite_no_collision : ∀ cx cy, Covered oneOn 0 0 0 cx cy → oneOn.disp.cell cx cy = false := by
  rintro cx cy ⟨r, hr, _⟩; exact absurd hr (Nat.not_lt_zero r)
theorem witness_DrawTwiceRestoresDisplay : (1 : RegIdx) ≠ 15 ∧ (2 : RegIdx) ≠ 15 ∧
    (State.reset.setI 4081).i.toNat + (15 : Nibble).toNat ≤ 4096 := by decide
theorem witness_CallSubroutine : (15 : Fin 16).val = (nested State.reset 15 0).sp.val ∧ (0 : Fin 16).val = State.reset.sp.val ∧
    (nested State.reset 16 0).sp.val = 16 := by decide
theorem witness_ReturnFromSubroutine : (15 : Fin 16).val + 1 = (nested State.reset 16 0).sp.val ∧
    (0 : Fin 16).val + 1 = (nested State.reset 1 0).sp.val ∧ State.reset.sp.val = 0 := by decide
theorem witness_CallThenReturn : (15 : Fin 16).val = (nested State.reset 15 0).sp.val := by decide
theorem witness_destination_not_flag : (14 : RegIdx) ≠ 15 ∧ (15 : RegIdx) = 15 := by decide
theorem witness_StoreBinaryCodedDecimal : (State.reset.setI 4093).i.toNat + 2 ≤ 4095 ∧
    (State.reset.setI 4094).i.toNat + 2 > 4095 := by decide
theorem witness_StoreRegisters : (State.reset.setI 4080).i.toNat + (15 : RegIdx).val ≤ 4095 ∧
    (State.reset.setI 4081).i.toNat + (15 : RegIdx).val > 4095 := by decide
theorem witness_LoadRegisters : (State.reset.setI 4095).i.toNat + (0 : RegIdx).val ≤ 4095 ∧
    (State.reset.setI 0xFFFF).i.toNat + (0 : RegIdx).val > 4095 := by decide
theorem witness_StoreThenLoadRestores : ∃ t, exec (.ldMemVx 1) ((regs [(0, 1), (1, 2)]).setI 4094) = .next t ∧
    ((regs [(0, 1), (1, 2)]).setI 4094).i.toNat + (1 : RegIdx).val ≤ 4095 ∧
    t.i = ((regs [(0, 1), (1, 2)]).setI 4094).i ∧ ∀ a, t.readMem a = t.readMem a :=
  ⟨_, rfl, by decide +kernel, rfl, fun _ => rfl⟩

/-- FX55 about to write 6A2F over the instruction at its PC. -/
def selfWriter : State := ((regs [(0, 0x6A), (1, 0x2F)]).setI 0x202).setPc 0x202

theorem witness_StoredWordIsFetchedNext : Safe selfWriter ∧ selfWriter.i.toNat + (1 : RegIdx).val ≤ 4095 ∧
    (1 : RegIdx).val = (0 : RegIdx).val + 1 ∧ selfWriter.pc.toNat = selfWriter.i.toNat + (0 : RegIdx).val ∧
    decode (selfWriter.reg 0 ++ selfWriter.reg 1) = some (.ldImm 0xA 0x2F) := by
  unfold Safe; decide +kernel
theorem witness_KeySkips : (15 : Fin 16).val = ((regs [(4, 15)]).reg 4).toNat ∧ ((regs [(4, 16)]).reg 4).toNat > 15 := by
  decide +kernel
theorem witness_WaitForKey : (hold (hold State.reset 9) 3).held 3 = true ∧
    (∀ j : Fin 16, j < 3 → (hold (hold State.reset 9) 3).held j = false) ∧ ∀ k, State.reset.held k = false := by
  decide +kernel
theorem witness_ClockIsStepsThenOneTick : Host.Core.run core 0 State.reset = .next State.reset ∧
    State.reset.status = .running ∧ Host.Core.run core 2 overflowed = .next overflowed ∧
    overflowed.status = .faulted ⟨.stackOverflow, 0x10FE⟩ := ⟨rfl, rfl, rfl, rfl⟩
theorem witness_KeysInDisplayOut : step (hold atTop 3) = .next (nextOf atTop (step (hold atTop 3))) := rfl
theorem witness_KeysInDisplayOut_transaction : transact (.clock 0) (hold atTop 3) = .next ((hold atTop 3).timerTick, .clock (.ok false false)) ∧
    Transaction.clock 0 ≠ .reset ∧ ∀ k, Transaction.clock 0 ≠ .setKeys k :=
  ⟨rfl, by decide, fun _ h => by cases h⟩
theorem witness_LoadRom : (List.replicate 3584 (1 : Byte)).length ≤ 3584 ∧ (List.replicate 3585 (1 : Byte)).length > 3584 := by
  rw [List.length_replicate, List.length_replicate]; decide
theorem witness_OnlyResetClearsFault : overflowed.status = .faulted ⟨.stackOverflow, 0x10FE⟩ ∧
    Transaction.clock 3 ≠ .reset := by decide

end Sys2Proof.Tests
end

section
/-! The fields of a word as numbers (R10), and their agreement where they overlap (R71). -/

namespace Sys2Proof

/-- A bit slice as a number: drop the bits below it by a division, those above it by a remainder. -/
theorem Word.toNat_slice (w : Word) (start len : Nat) :
    (w.extractLsb' start len).toNat = w.toNat / 2 ^ start % 2 ^ len := by
  rw [BitVec.extractLsb'_toNat, Nat.shiftRight_eq_div_pow]

/-- A slice that starts at bit 0 needs no division. -/
theorem Word.toNat_lowSlice (w : Word) (len : Nat) : (w.extractLsb' 0 len).toNat = w.toNat % 2 ^ len := by
  rw [w.toNat_slice, pow_zero, Nat.div_one]

/-- OP is the top slice of the word: a 16-bit word has no bits above it, so that no remainder is taken. -/
@[simp] theorem fieldsOf_op_toNat (w : Word) : (fieldsOf w).op.toNat = w.toNat / 4096 := by
  have below : w.toNat / 4096 < 16 := Nat.div_lt_of_lt_mul w.isLt
  exact (w.toNat_slice 12 4).trans (Nat.mod_eq_of_lt below)

@[simp] theorem fieldsOf_x_toNat (w : Word) : (fieldsOf w).x.toNat = w.toNat / 256 % 16 :=
  w.toNat_slice 8 4

@[simp] theorem fieldsOf_y_toNat (w : Word) : (fieldsOf w).y.toNat = w.toNat / 16 % 16 :=
  w.toNat_slice 4 4

@[simp] theorem fieldsOf_n_toNat (w : Word) : (fieldsOf w).n.toNat = w.toNat % 16 :=
  w.toNat_lowSlice 4

@[simp] theorem fieldsOf_nn_toNat (w : Word) : (fieldsOf w).nn.toNat = w.toNat % 256 :=
  w.toNat_lowSlice 8

@[simp] theorem fieldsOf_nnn_toNat (w : Word) : (fieldsOf w).nnn.toNat = w.toNat % 4096 :=
  w.toNat_lowSlice 12

/-- The overlapping fields agree for every word: a word is its four nibbles, and of four nibbles side by side NN is
the last two and NNN the last three. -/
@[simp] theorem fieldsOf_wellFormed (w : Word) : (fieldsOf w).wellFormed = true := by
  rw [word_eq_nibbles w, fieldsOf_xyn]
  simp only [Fields.wellFormed, decide_true, Bool.and_self]

/-- Settles O1: each field is its slice's number, and the fields agree because a word is its four nibbles. -/
theorem fieldsAreBitSlices : Obligations.FieldsAreBitSlices := fun w =>
  ⟨fieldsOf_op_toNat w, fieldsOf_x_toNat w, fieldsOf_y_toNat w, fieldsOf_n_toNat w, fieldsOf_nn_toNat w,
    fieldsOf_nnn_toNat w, fieldsOf_wellFormed w⟩

end Sys2Proof
end

section
/-! How every instruction ends: it writes only its footprint (R22, R24), or it raises a fault, which undoes the advance
of PC and changes nothing else (R201). -/

namespace Sys2Proof.Machine

/-! Frames of the operations an instruction is made of. -/

/-- One operation after another changes no more than the two together. -/
theorem Frame.comp {c d : Set Part} {s t u : State} (h : Frame c s t) (h' : Frame d t u) : Frame (c ∪ d) s u :=
  (h.mono Set.subset_union_left).trans (h'.mono Set.subset_union_right)

theorem frame_skipIf (s : State) (c : Bool) : Frame {.pc} s (s.skipIf c) := by
  cases c with
  | false => exact Frame.refl _ s
  | true => exact frame_setPc s _

/-- A result and a flag (R146): V[X] and VF, whichever is written first. -/
theorem frame_setReg_setFlag (s : State) (x : RegIdx) (b : Byte) (f : Bool) :
    Frame {.v x, .v 15} s ((s.setReg x b).setFlag f) :=
  (frame_setReg s x b).comp (frame_setReg _ 15 _)

theorem frame_setFlag_setReg (s : State) (x : RegIdx) (b : Byte) (f : Bool) :
    Frame {.v x, .v 15} s ((s.setFlag f).setReg x b) :=
  ((frame_setReg s 15 _).comp (frame_setReg _ x b)).mono (Set.union_comm _ _).subset

/-- Each of the three digits of FX33 is within its block (R163). -/
theorem frame_three_writeMem (s : State) (a : Nat) (u v w : Byte) :
    Frame (memBlock a 3) s (((s.writeMem a u).writeMem (a + 1) v).writeMem (a + 2) w) := by
  have inBlock : ∀ k, k < 3 → ({.mem (a + k)} : Set Part) ⊆ memBlock a 3 := by
    rintro k hk p rfl; exact ⟨k, hk, rfl⟩
  exact (((frame_writeMem s a u).mono (inBlock 0 (by decide))).trans
    ((frame_writeMem _ _ v).mono (inBlock 1 (by decide)))).trans ((frame_writeMem _ _ w).mono (inBlock 2 (by decide)))

/-- What `pop` can do (R29). -/
theorem State.pop_cases (s : State) :
    s.pop = none ∨ ∃ k t, s.pop = some (s.entry k, t) ∧ Frame {.sp} s t := by
  obtain h | h := Nat.eq_zero_or_pos s.sp.val
  · exact .inl (s.pop_empty h)
  · obtain ⟨t, ht, -, -, -, hf⟩ := s.pop_spec ⟨s.sp.val - 1, by omega⟩ (by simp only; omega)
    exact .inr ⟨_, t, ht, hf⟩

/-- What `push` can do (R28). -/
theorem State.push_cases (s : State) (w : Word) :
    s.push w = none ∨
      ∃ k t, k.val = s.sp.val ∧ s.push w = some t ∧ t.entry k = w ∧ Frame {.sp, .stack k} s t := by
  obtain h | h := Nat.lt_or_ge s.sp.val 16
  · obtain ⟨t, ht, hw, -, -, -, hf⟩ := s.push_spec w ⟨s.sp.val, h⟩ rfl
    exact .inr ⟨_, t, rfl, ht, hw, hf⟩
  · exact .inl (s.push_full w (by omega))

/-! How an instruction ends. -/

/-- The two ways an instruction ends: with a state that keeps everything outside `c`, or by raising a fault. -/
def EndsWithin (c : Set Part) (s : State) (r : Result) : Prop :=
  (∃ t, r = .next t ∧ Frame c s t) ∨ ∃ k, r = s.raise k

theorem Frame.endsWithin {c : Set Part} {s t : State} (h : Frame c s t) : EndsWithin c s (.next t) :=
  .inl ⟨t, rfl, h⟩

theorem State.raise_endsWithin (s : State) (c : Set Part) (k : FaultKind) : EndsWithin c s (s.raise k) :=
  .inr ⟨k, rfl⟩

/-- The check of R54 adds no way to end but a fault. -/
theorem EndsWithin.checked {c : Set Part} {s : State} {r : Result} (h : EndsWithin c s r) (a n : Nat) :
    EndsWithin c s (s.checked a n r) := by
  by_cases fits : n = 0 ∨ a + n ≤ 4096
  · rwa [s.checked_of_fits a n r fits]
  · rw [s.checked_of_bad a n r (by omega) (by omega)]
    exact s.raise_endsWithin c _

/-- 00EE (R110): the underflow, or PC at an entry of the stack. -/
theorem execRet_cases (s : State) :
    execRet s = s.raise .stackUnderflow ∨
      ∃ k t, execRet s = .next (t.setPc (s.entry k)) ∧ Frame {.sp} s t := by
  obtain h | ⟨k, t, h, hf⟩ := s.pop_cases
  · exact .inl (by rw [execRet, h])
  · exact .inr ⟨k, t, by rw [execRet, h], hf⟩

/-- 2NNN (R112): the overflow, or PC pushed to the entry at SP. -/
theorem execCall_cases (nnn : Addr12) (s : State) :
    execCall nnn s = s.raise .stackOverflow ∨
      ∃ k t, k.val = s.sp.val ∧ execCall nnn s = .next (t.setPc nnn.zext) ∧ t.entry k = s.pc ∧
        Frame {.sp, .stack k} s t := by
  obtain h | ⟨k, t, hk, h, he, hf⟩ := s.push_cases s.pc
  · exact .inl (by rw [execCall, h])
  · exact .inr ⟨k, t, hk, by rw [execCall, h], he, hf⟩

theorem execRet_endsWithin (s : State) : EndsWithin {.pc, .sp} s (execRet s) := by
  obtain h | ⟨k, t, h, hf⟩ := execRet_cases s
  · exact h ▸ s.raise_endsWithin _ _
  · exact h ▸ ((hf.comp (frame_setPc t _)).mono (Set.union_comm _ _).subset).endsWithin

theorem execCall_endsWithin (nnn : Addr12) (s : State) :
    EndsWithin (footprint (.call nnn) s) s (execCall nnn s) := by
  obtain h | ⟨k, t, hk, h, -, hf⟩ := execCall_cases nnn s
  · exact h ▸ s.raise_endsWithin _ _
  · refine h ▸ ((hf.comp (frame_setPc t _)).mono ?_).endsWithin
    rintro p ((rfl | rfl) | rfl)
    · exact .inl (.inr rfl)
    · exact .inr ⟨k, hk, rfl⟩
    · exact .inl (.inl rfl)

/-- EX9E and EXA1 (R180, R181): a skip, or the fault of a key index above 15 (R186). -/
theorem exec_keySkip_cases {i : Instr} {x : RegIdx} (hi : i = .skp x ∨ i = .sknp x) (s : State) :
    (∃ c, exec i s = .next (s.skipIf c)) ∨ exec i s = s.raise (.keyIndexOutOfRange (s.reg x)) := by
  cases hk : keyIndex (s.reg x) with
  | some k =>
    obtain rfl | rfl := hi
    · exact .inl ⟨s.held k, by simp only [exec, execSkp, hk]⟩
    · exact .inl ⟨!s.held k, by simp only [exec, execSknp, hk]⟩
  | none =>
    obtain rfl | rfl := hi
    · exact .inr (by simp only [exec, execSkp, hk])
    · exact .inr (by simp only [exec, execSknp, hk])

/-- FX0A (R183): a key to V[X], or PC back at A (D21). -/
theorem execLdVxK_cases (x : RegIdx) (s : State) :
    (∃ b, execLdVxK x s = .next (s.setReg x b)) ∨ execLdVxK x s = .next (s.setPc (s.pc - 2)) := by
  cases hk : s.firstHeld with
  | some k => exact .inl ⟨BitVec.ofNat 8 k.val, by simp only [execLdVxK, hk]⟩
  | none => exact .inr (by simp only [execLdVxK, hk])

theorem exec_keySkip_endsWithin {i : Instr} {x : RegIdx} (hi : i = .skp x ∨ i = .sknp x) (s : State) :
    EndsWithin {.pc} s (exec i s) := by
  obtain ⟨c, h⟩ | h := exec_keySkip_cases hi s
  · exact h ▸ (frame_skipIf s c).endsWithin
  · exact h ▸ s.raise_endsWithin _ _

theorem execLdVxK_endsWithin (x : RegIdx) (s : State) : EndsWithin {.v x, .pc} s (execLdVxK x s) := by
  obtain ⟨b, h⟩ | h := execLdVxK_cases x s
  · exact h ▸ ((frame_setReg s x b).mono (by simp)).endsWithin
  · exact h ▸ ((frame_setPc s _).mono (by simp)).endsWithin

theorem execRnd_endsWithin (x : RegIdx) (nn : Byte) (s : State) : EndsWithin {.v x, .draws} s (execRnd x nn s) :=
  (((frame_drawByte s).comp (frame_setReg _ x _)).mono (Set.union_comm _ _).subset).endsWithin

theorem execDrw_endsWithin (x y : RegIdx) (n : Nibble) (s : State) :
    EndsWithin ({.v 15} ∪ displayCells) s (execDrw x y n s) :=
  (((frame_setDisp s _).comp (frame_setReg _ 15 _)).mono (Set.union_comm _ _).subset).endsWithin.checked _ _

theorem execLdB_endsWithin (x : RegIdx) (s : State) : EndsWithin (memBlock s.i.toNat 3) s (execLdB x s) :=
  (frame_three_writeMem s s.i.toNat _ _ _).endsWithin.checked _ _

theorem execLdMemVx_endsWithin (x : RegIdx) (s : State) :
    EndsWithin (memBlock s.i.toNat (x.val + 1)) s (execLdMemVx x s) :=
  (s.storeRegs_frame (x.val + 1)).endsWithin.checked _ _

theorem execLdVxMem_endsWithin (x : RegIdx) (s : State) :
    EndsWithin {p | ∃ r : RegIdx, r.val ≤ x.val ∧ p = .v r} s (execLdVxMem x s) := by
  refine ((s.loadRegs_frame (x.val + 1) (by omega)).mono ?_).endsWithin.checked _ _
  rintro p ⟨r, hr, rfl⟩
  exact ⟨r, Nat.le_of_lt_succ hr, rfl⟩

/-- Every instruction keeps what is outside its footprint, or raises a fault. -/
theorem exec_endsWithin_footprint (i : Instr) (s : State) : EndsWithin (footprint i s) s (exec i s) := by
  cases i with
  | cls0000 | cls00E0 => exact (frame_setDisp s _).endsWithin
  | ret => exact execRet_endsWithin s
  | call nnn => exact execCall_endsWithin nnn s
  | jp nnn | jpV0 nnn => exact (frame_setPc s _).endsWithin
  | seImm x nn | sneImm x nn => exact (frame_skipIf s _).endsWithin
  | seReg x y | sneReg x y => exact (frame_skipIf s _).endsWithin
  | skp x => exact exec_keySkip_endsWithin (.inl rfl) s
  | sknp x => exact exec_keySkip_endsWithin (.inr rfl) s
  | ldImm x nn | addImm x nn => exact (frame_setReg s x _).endsWithin
  | ldReg x y | orReg x y | andReg x y | xorReg x y => exact (frame_setReg s x _).endsWithin
  | addReg x y | subReg x y | subn x y => exact (frame_setReg_setFlag s x _ _).endsWithin
  | shr x y | shl x y => exact (frame_setFlag_setReg s x _ _).endsWithin
  | rnd x nn => exact execRnd_endsWithin x nn s
  | drw x y n => exact execDrw_endsWithin x y n s
  | ldVxDt x => exact (frame_setReg s x _).endsWithin
  | ldVxK x => exact execLdVxK_endsWithin x s
  | ldDtVx x => exact (frame_setDt s _).endsWithin
  | ldStVx x => exact (frame_setSt s _).endsWithin
  | ldI nnn => exact (frame_setI s _).endsWithin
  | addI x | ldF x => exact (frame_setI s _).endsWithin
  | ldB x => exact execLdB_endsWithin x s
  | ldMemVx x => exact execLdMemVx_endsWithin x s
  | ldVxMem x => exact execLdVxMem_endsWithin x s

/-- What an instruction that answers `next t` did: a fault taken at A, or nothing outside its footprint. -/
theorem exec_cases {i : Instr} {s t : State} (h : exec i s = .next t) :
    (∃ k, t = s.takeFault (s.pc - 2) k) ∨ Frame (footprint i s) s t := by
  obtain ⟨u, hu, hf⟩ | ⟨k, hk⟩ := exec_endsWithin_footprint i s
  · cases h.symm.trans hu; exact .inr hf
  · cases h.symm.trans hk; exact .inl ⟨k, rfl⟩

/-- Settles O20: a running end is no fault, so it is the instruction's frame. -/
theorem frameOfEveryInstruction : Obligations.FrameOfEveryInstruction := by
  intro i s t h safe
  obtain ⟨k, rfl⟩ | hf := exec_cases h
  · cases safe
  · exact hf

/-! Which instructions have a part of the state in their footprint. -/

section footprint
variable {i : Instr} {s : State}

theorem v_mem_footprint {r : RegIdx} : .v r ∈ footprint i s ↔ namesDest i r ∨ (r = 15 ∧ setsFlag i) := by
  cases i <;> simp [footprint, namesDest, setsFlag, memBlock, displayCells]

theorem pc_mem_footprint : .pc ∈ footprint i s ↔ movesPc i := by
  cases i <;> simp [footprint, movesPc, memBlock, displayCells]

theorem i_mem_footprint :
    .i ∈ footprint i s ↔ (∃ nnn, i = .ldI nnn) ∨ (∃ x, i = .addI x) ∨ ∃ x, i = .ldF x := by
  cases i <;> simp [footprint, memBlock, displayCells]

theorem stack_mem_footprint {k : Fin 16} :
    .stack k ∈ footprint i s ↔ (∃ nnn, i = .call nnn) ∧ k.val = s.sp.val := by
  cases i <;> simp [footprint, memBlock, displayCells]

theorem sp_mem_footprint : .sp ∈ footprint i s ↔ i = .ret ∨ ∃ nnn, i = .call nnn := by
  cases i <;> simp [footprint, memBlock, displayCells]

theorem dt_mem_footprint : .dt ∈ footprint i s ↔ ∃ x, i = .ldDtVx x := by
  cases i <;> simp [footprint, memBlock, displayCells]

theorem st_mem_footprint : .st ∈ footprint i s ↔ ∃ x, i = .ldStVx x := by
  cases i <;> simp [footprint, memBlock, displayCells]

theorem ldB_or_ldMemVx_of_mem_footprint {a : Nat} :
    .mem a ∈ footprint i s → (∃ x, i = .ldB x) ∨ ∃ x, i = .ldMemVx x := by
  cases i <;> simp [footprint, memBlock, displayCells]

theorem disp_mem_footprint {x : Fin 64} {y : Fin 32} :
    .disp x y ∈ footprint i s ↔ i = .cls0000 ∨ i = .cls00E0 ∨ ∃ vx vy n, i = .drw vx vy n := by
  cases i <;> simp [footprint, memBlock, displayCells]

theorem draws_mem_footprint : .draws ∈ footprint i s ↔ ∃ x nn, i = .rnd x nn := by
  cases i <;> simp [footprint, memBlock, displayCells]

/-- KEY, STATUS and the font are in no footprint (R35, R40). -/
theorem key_notMem_footprint (k : Fin 16) : .key k ∉ footprint i s := by
  cases i <;> simp [footprint, memBlock, displayCells]

theorem status_notMem_footprint : .status ∉ footprint i s := by
  cases i <;> simp [footprint, memBlock, displayCells]

theorem font_notMem_footprint : .font ∉ footprint i s := by
  cases i <;> simp [footprint, memBlock, displayCells]

end footprint

/-- A fault changes PC and STATUS only (R201). -/
theorem State.takeFault_frame (s : State) (a : Word) (k : FaultKind) : Frame {.pc, .status} s (s.takeFault a k) :=
  have ⟨_, _, rest⟩ := s.takeFault_faultedFrom a k
  rest

/-- Settles O21: a fault leaves VF alone, and VF is in the footprint of these instructions only. -/
theorem onlyFlagSettersWriteFlag : Obligations.OnlyFlagSettersWriteFlag := by
  intro i s t h changed
  obtain ⟨k, rfl⟩ | hf := exec_cases h
  · exact absurd (s.takeFault_frame _ k (.v 15) (by simp)) changed
  · have written : .v 15 ∈ footprint i s := by_contra fun outside => changed (hf _ outside)
    exact (v_mem_footprint.mp written).symm.imp_left And.right

/-! What a step can change. -/

/-- What a step that answers `next t` did: nothing on a faulted core; a fault taken at PC; or the decoded instruction
ran and kept what is outside its footprint. -/
theorem step_effect {s t : State} (h : step s = .next t) :
    (¬ Safe s ∧ t = s) ∨ (Safe s ∧ ∃ k, t = s.takeFault s.pc k) ∨
    (Safe s ∧ s.pc.toNat ≤ 4094 ∧ ∃ i, decode (s.wordAt s.pc.toNat) = some i ∧ exec i s.advance = .next t ∧
      Frame (footprint i s.advance) s.advance t) := by
  obtain ⟨f, hs, rfl⟩ | ⟨hs, -, rfl⟩ | ⟨hs, -, -, rfl⟩ | ⟨hs, hp, i, hd, hx⟩ := step_cases h
  · exact .inl ⟨by simp [Safe, hs], rfl⟩
  · exact .inr (.inl ⟨hs, _, rfl⟩)
  · exact .inr (.inl ⟨hs, _, rfl⟩)
  · obtain ⟨k, rfl⟩ | hf := exec_cases hx
    · exact .inr (.inl ⟨hs, k, by rw [s.advance_pc_sub]; rfl⟩)
    · exact .inr (.inr ⟨hs, hp, i, hd, hx, hf⟩)

/-- A part a step changes, other than PC and STATUS, is in the footprint of the instruction at PC. -/
theorem step_changes_only_footprint {s t : State} (h : step s = .next t) {p : Part}
    (hp : p ∉ ({.pc, .status} : Set Part))
    (changed : ¬ SameAt s t p) : ∃ i, decode (s.wordAt s.pc.toNat) = some i ∧ p ∈ footprint i s.advance := by
  obtain ⟨-, rfl⟩ | ⟨-, k, rfl⟩ | ⟨-, -, i, hd, -, hf⟩ := step_effect h
  · exact absurd (Frame.refl ∅ t p (Set.notMem_empty p)) changed
  · exact absurd (s.takeFault_frame _ k p hp) changed
  · have advanced : SameAt s s.advance p := frame_setPc s _ p fun e => hp (.inl e)
    exact ⟨i, hd, by_contra fun outside => changed (advanced.trans (hf p outside))⟩

/-- PC after a step (R24): A + 2, unless the core is faulted, PC being A then, or the instruction moves it. -/
theorem step_pc {s t : State} (h : step s = .next t) (moved : t.pc ≠ s.pc + 2) :
    (¬ Safe t ∧ t.pc = s.pc) ∨ ∃ i, decode (s.wordAt s.pc.toNat) = some i ∧ movesPc i := by
  obtain ⟨hs, rfl⟩ | ⟨-, k, rfl⟩ | ⟨-, -, i, hd, -, hf⟩ := step_effect h
  · exact .inl ⟨hs, rfl⟩
  · exact .inl ⟨nofun, rfl⟩
  · exact .inr ⟨i, hd, pc_mem_footprint.mp (by_contra fun outside => moved (hf .pc outside))⟩

/-- STATUS changes only by a fault recorded at A (R201). -/
theorem step_status {s t : State} (h : step s = .next t) (changed : t.status ≠ s.status) :
    Safe s ∧ t.pc = s.pc ∧ ∃ k, t.status = .faulted ⟨k, s.pc⟩ := by
  obtain ⟨-, rfl⟩ | ⟨hs, k, rfl⟩ | ⟨-, -, i, -, -, hf⟩ := step_effect h
  · exact absurd rfl changed
  · exact ⟨hs, rfl, k, rfl⟩
  · exact absurd (hf .status status_notMem_footprint) changed

/-- Settles O19: what a step changes is in the footprint of the instruction at PC, and each footprint is the rules'. -/
theorem onlyTheNamedInstructionsWrite : Obligations.OnlyTheNamedInstructionsWrite := by
  intro s t h
  have writer (p : Part) (hp : p ∉ ({.pc, .status} : Set Part)) (changed : ¬ SameAt s t p) :=
    step_changes_only_footprint h hp changed
  refine ⟨fun r hr => ?v, step_pc h, step_status h, fun k => ?key, ?font, fun hr => ?dt, fun hr => ?st, fun hr => ?i,
    fun a hr => ?mem, fun x y hr => ?disp, fun k hr => ?stack, fun hr => ?sp, fun hr => ?draws⟩
  case v =>
    obtain ⟨i, hd, hi⟩ := writer (.v r) (by simp) hr
    exact ⟨i, hd, v_mem_footprint.mp hi⟩
  case key =>
    by_contra hr
    obtain ⟨i, -, hi⟩ := writer (.key k) (by simp) hr
    exact key_notMem_footprint k hi
  case font =>
    by_contra hr
    obtain ⟨i, -, hi⟩ := writer .font (by simp) hr
    exact font_notMem_footprint hi
  case dt =>
    obtain ⟨i, hd, hi⟩ := writer .dt (by simp) hr
    obtain ⟨x, rfl⟩ := dt_mem_footprint.mp hi
    exact ⟨x, hd⟩
  case st =>
    obtain ⟨i, hd, hi⟩ := writer .st (by simp) hr
    obtain ⟨x, rfl⟩ := st_mem_footprint.mp hi
    exact ⟨x, hd⟩
  case i =>
    obtain ⟨i, hd, hi⟩ := writer .i (by simp) hr
    obtain ⟨nnn, rfl⟩ | ⟨x, rfl⟩ | ⟨x, rfl⟩ := i_mem_footprint.mp hi
    · exact .inl ⟨nnn, hd⟩
    · exact .inr (.inl ⟨x, hd⟩)
    · exact .inr (.inr ⟨x, hd⟩)
  case mem =>
    obtain ⟨i, hd, hi⟩ := writer (.mem a) (by simp) hr
    obtain ⟨x, rfl⟩ | ⟨x, rfl⟩ := ldB_or_ldMemVx_of_mem_footprint hi
    · exact .inl ⟨x, hd⟩
    · exact .inr ⟨x, hd⟩
  case disp =>
    obtain ⟨i, hd, hi⟩ := writer (.disp x y) (by simp) hr
    obtain rfl | rfl | ⟨vx, vy, n, rfl⟩ := disp_mem_footprint.mp hi
    · exact .inl hd
    · exact .inr (.inl hd)
    · exact .inr (.inr ⟨vx, vy, n, hd⟩)
  case stack =>
    obtain ⟨i, hd, hi⟩ := writer (.stack k) (by simp) hr
    obtain ⟨⟨nnn, rfl⟩, -⟩ := stack_mem_footprint.mp hi
    exact ⟨nnn, hd⟩
  case sp =>
    obtain ⟨i, hd, hi⟩ := writer .sp (by simp) hr
    obtain rfl | ⟨nnn, rfl⟩ := sp_mem_footprint.mp hi
    · exact .inl hd
    · exact .inr ⟨nnn, hd⟩
  case draws =>
    obtain ⟨i, hd, hi⟩ := writer .draws (by simp) hr
    obtain ⟨x, nn, rfl⟩ := draws_mem_footprint.mp hi
    exact ⟨x, nn, hd⟩

/-! The bound of PC and of the stack entries (R25, D11). -/

/-- The values an instruction can leave in PC, PC being A + 2 before it (R24). -/
inductive PcAfter (s : State) : Word → Prop where
  /-- A again: a fault, or FX0A with no key held (R201, R183) -/
  | back : PcAfter s (s.pc - 2)
  /-- the next instruction -/
  | next : PcAfter s s.pc
  /-- the one after the next: a skip -/
  | skip : PcAfter s (s.pc + 2)
  /-- 1NNN, 2NNN -/
  | jump (nnn : Addr12) : PcAfter s nnn.zext
  /-- BNNN -/
  | jumpIndexed (b : Byte) (nnn : Addr12) : PcAfter s (jumpIndexedTarget b nnn)
  /-- 00EE -/
  | ret (k : Fin 16) : PcAfter s (s.entry k)

theorem State.skipIf_pcAfter (s : State) (c : Bool) : PcAfter s (s.skipIf c).pc := by
  cases c with
  | false => exact .next
  | true => exact .skip

theorem exec_keySkip_pcAfter {i : Instr} {x : RegIdx} {s t : State} (hi : i = .skp x ∨ i = .sknp x)
    (h : exec i s = .next t) : PcAfter s t.pc := by
  obtain ⟨c, hr⟩ | hr := exec_keySkip_cases hi s
  · cases h.symm.trans hr; exact s.skipIf_pcAfter c
  · cases h.symm.trans hr; exact .back

theorem execLdVxK_pcAfter {x : RegIdx} {s t : State} (h : execLdVxK x s = .next t) : PcAfter s t.pc := by
  obtain ⟨b, hr⟩ | hr := execLdVxK_cases x s
  · cases h.symm.trans hr; exact .next
  · cases h.symm.trans hr; exact .back

theorem execRet_pcAfter {s t : State} (h : execRet s = .next t) : PcAfter s t.pc := by
  obtain hr | ⟨k, u, hr, -⟩ := execRet_cases s
  · cases h.symm.trans hr; exact .back
  · cases h.symm.trans hr; exact .ret k

theorem execCall_pcAfter {nnn : Addr12} {s t : State} (h : execCall nnn s = .next t) : PcAfter s t.pc := by
  obtain hr | ⟨k, u, -, hr, -⟩ := execCall_cases nnn s
  · cases h.symm.trans hr; exact .back
  · cases h.symm.trans hr; exact .jump nnn

theorem exec_pcAfter {i : Instr} {s t : State} (h : exec i s = .next t) : PcAfter s t.pc := by
  by_cases hm : movesPc i
  · cases i with
    | jp nnn => cases h; exact .jump nnn
    | jpV0 nnn => cases h; exact .jumpIndexed _ nnn
    | call nnn => exact execCall_pcAfter h
    | ret => exact execRet_pcAfter h
    | seImm x nn | sneImm x nn => cases h; exact s.skipIf_pcAfter _
    | seReg x y | sneReg x y => cases h; exact s.skipIf_pcAfter _
    | skp x => exact exec_keySkip_pcAfter (.inl rfl) h
    | sknp x => exact exec_keySkip_pcAfter (.inr rfl) h
    | ldVxK x => exact execLdVxK_pcAfter h
    | _ => exact hm.elim
  · obtain ⟨k, rfl⟩ | hf := exec_cases h
    · exact .back
    · have kept : t.pc = s.pc := hf .pc (mt pc_mem_footprint.mp hm)
      exact kept ▸ .next

/-- A stack entry after an instruction is what it was, or the return address a call pushes. -/
theorem exec_entry {i : Instr} {s t : State} (h : exec i s = .next t) (k : Fin 16) :
    t.entry k = s.entry k ∨ t.entry k = s.pc := by
  obtain ⟨f, rfl⟩ | hf := exec_cases h
  · exact .inl rfl
  by_cases hm : .stack k ∈ footprint i s
  · obtain ⟨⟨nnn, rfl⟩, hk⟩ := stack_mem_footprint.mp hm
    obtain hc | ⟨j, u, hj, hc, hu, -⟩ := execCall_cases nnn s
    · cases h.symm.trans hc; exact .inl rfl
    · cases h.symm.trans hc
      obtain rfl : j = k := Fin.ext (hj.trans hk.symm)
      exact .inr hu
  · exact .inl (hf _ hm)

theorem Addr12.zext_toNat (a : Addr12) : a.zext.toNat = a.toNat := by
  rw [Addr12.zext, BitVec.toNat_setWidth_of_le (by decide)]

/-- The greatest target of BNNN is 0xFF + 0xFFF (R25). -/
theorem jumpIndexedTarget_le (b : Byte) (nnn : Addr12) : (jumpIndexedTarget b nnn).toNat ≤ 0x10FE := by
  have hb := b.isLt
  have hn := nnn.isLt
  simp only [jumpIndexedTarget, Byte.zext, Addr12.zext, BitVec.toNat_add, BitVec.toNat_setWidth]
  omega

/-- R25's bound: an instruction is fetched at 4094 at most, so that the greatest PC is BNNN's. -/
theorem PcAfter.le {s : State} {w : Word} (h : PcAfter s.advance w) (hp : s.pc.toNat ≤ 4094)
    (he : ∀ k, (s.entry k).toNat ≤ 0x1000) : w.toNat ≤ 0x10FE := by
  cases h with
  | back => rw [s.advance_pc_sub]; omega
  | next => rw [s.advance_pc]; bv_omega
  | skip => rw [s.advance_pc]; bv_omega
  | jump nnn => have := nnn.isLt; rw [Addr12.zext_toNat]; omega
  | jumpIndexed b nnn => exact jumpIndexedTarget_le b nnn
  | ret k => exact (he k).trans (by decide)

/-- Settles O17: a fault keeps PC and the stack, and an instruction leaves in PC a value of `PcAfter` and in an entry
the entry itself or A + 2. -/
theorem stepKeepsPcBounded : Obligations.StepKeepsPcBounded := by
  intro s t ⟨hpc, he⟩ h
  obtain ⟨-, rfl⟩ | ⟨-, k, rfl⟩ | ⟨-, hp, i, -, hx, -⟩ := step_effect h
  · exact ⟨hpc, he⟩
  · exact ⟨hpc, he⟩
  · refine ⟨(exec_pcAfter hx).le hp he, fun k => ?_⟩
    obtain hk | hk := exec_entry hx k
    · rw [hk]; exact he k
    · rw [hk, s.advance_pc]; bv_omega

end Sys2Proof.Machine
end

section
/-! Memory (spec/20_memory.md): what a write leaves, which instructions write, and that the fetch reads what was
written last. -/

namespace Sys2Proof.Machine

/-! Operations and the canonical form. -/

/-- The canonical form speaks of memory and the font only. -/
theorem MemoryCanonical.of_eq {s t : State} (hs : MemoryCanonical s) (hm : t.mem = s.mem) (hf : t.font = s.font) :
    MemoryCanonical t := by
  rwa [MemoryCanonical, hm, hf]

theorem MemoryCanonical.writeMem {s : State} (hs : MemoryCanonical s) (a : Nat) (v : Byte) :
    MemoryCanonical (s.writeMem a v) :=
  Memory.wf_write s.font s.mem a v hs

/-- Settles O22: the laws of a write, for the byte written, for the other parts and for the canonical form. -/
theorem memoryHoldsLastWrite : Obligations.MemoryHoldsLastWrite := by
  intro s a v
  refine ⟨fun ha => ?_, frame_writeMem s a v, fun hs => hs.writeMem a v⟩
  rw [s.readMem_writeMem, if_pos ⟨rfl, by omega⟩]

theorem MemoryCanonical.storeRegs {s : State} (hs : MemoryCanonical s) (n : Nat) : MemoryCanonical (s.storeRegs n) := by
  induction n with
  | zero => exact hs
  | succ n ih => rw [s.storeRegs_succ]; exact ih.writeMem _ _

theorem MemoryCanonical.loadRegs {s : State} (hs : MemoryCanonical s) (n : Nat) : MemoryCanonical (s.loadRegs n) := by
  induction n with
  | zero => exact hs
  | succ n ih => rw [s.loadRegs_succ]; exact ih

theorem MemoryCanonical.skipIf {s : State} (hs : MemoryCanonical s) (c : Bool) : MemoryCanonical (s.skipIf c) := by
  cases c with
  | false => exact hs
  | true => exact hs

/-- The check of R54 ends in the checked state or in a fault, which leaves memory alone. -/
theorem MemoryCanonical.checked {s t u : State} {a n : Nat} (hs : MemoryCanonical s) (hu : MemoryCanonical u)
    (h : s.checked a n (.next u) = .next t) : MemoryCanonical t := by
  by_cases fits : n = 0 ∨ a + n ≤ 4096
  · rw [s.checked_of_fits a n _ fits] at h; cases h; exact hu
  · rw [s.checked_of_bad a n _ (by omega) (by omega)] at h; cases h; exact hs

/-! Instructions and the canonical form. -/

theorem MemoryCanonical.after_execRet {s t : State} (hs : MemoryCanonical s) (h : execRet s = .next t) :
    MemoryCanonical t := by
  obtain empty | used := Nat.eq_zero_or_pos s.sp.val
  · rw [execRet, s.pop_empty empty] at h; cases h; exact hs
  · obtain ⟨u, hu, -, hm, hf, -⟩ := s.pop_spec ⟨s.sp.val - 1, by omega⟩ (by simp only; omega)
    rw [execRet, hu] at h; cases h; exact hs.of_eq hm hf

theorem MemoryCanonical.after_execCall {s t : State} {nnn : Addr12} (hs : MemoryCanonical s)
    (h : execCall nnn s = .next t) : MemoryCanonical t := by
  obtain room | full := Nat.lt_or_ge s.sp.val 16
  · obtain ⟨u, hu, -, -, hm, hf, -⟩ := s.push_spec s.pc ⟨s.sp.val, room⟩ rfl
    rw [execCall, hu] at h; cases h; exact hs.of_eq hm hf
  · rw [execCall, s.push_full s.pc (by omega)] at h; cases h; exact hs

theorem MemoryCanonical.after_keySkip {i : Instr} {x : RegIdx} {s t : State} (hs : MemoryCanonical s)
    (hi : i = .skp x ∨ i = .sknp x) (h : exec i s = .next t) : MemoryCanonical t := by
  obtain ⟨c, hr⟩ | hr := exec_keySkip_cases hi s
  · cases h.symm.trans hr; exact hs.skipIf c
  · cases h.symm.trans hr; exact hs

theorem MemoryCanonical.after_execLdVxK {x : RegIdx} {s t : State} (hs : MemoryCanonical s)
    (h : execLdVxK x s = .next t) : MemoryCanonical t := by
  obtain ⟨b, hr⟩ | hr := execLdVxK_cases x s
  · cases h.symm.trans hr; exact hs
  · cases h.symm.trans hr; exact hs

/-- FX33 and FX55 write bytes one by one; every other instruction leaves memory and the font as they are (R50). -/
theorem MemoryCanonical.after_exec {i : Instr} {s t : State} (hs : MemoryCanonical s) (h : exec i s = .next t) :
    MemoryCanonical t := by
  cases i with
  | ldB x => exact hs.checked (((hs.writeMem _ _).writeMem _ _).writeMem _ _) h
  | ldMemVx x => exact hs.checked (hs.storeRegs _) h
  | ldVxMem x => exact hs.checked (hs.loadRegs _) h
  | drw x y n => refine hs.checked ?_ h; exact hs
  | ret => exact hs.after_execRet h
  | call nnn => exact hs.after_execCall h
  | seImm x nn | sneImm x nn => cases h; exact hs.skipIf _
  | seReg x y | sneReg x y => cases h; exact hs.skipIf _
  | skp x => exact hs.after_keySkip (.inl rfl) h
  | sknp x => exact hs.after_keySkip (.inr rfl) h
  | ldVxK x => exact hs.after_execLdVxK h
  | cls0000 | cls00E0 => cases h; exact hs
  | jp nnn | jpV0 nnn | ldI nnn => cases h; exact hs
  | ldImm x nn | addImm x nn | rnd x nn => cases h; exact hs
  | ldReg x y | orReg x y | andReg x y | xorReg x y => cases h; exact hs
  | addReg x y | subReg x y | shr x y | subn x y | shl x y => cases h; exact hs
  | ldVxDt x | ldDtVx x | ldStVx x | addI x | ldF x => cases h; exact hs

/-- Settles O15: a faulted core and a fault leave memory alone, and so does the fetch's advance before an instruction. -/
theorem stepKeepsMemoryCanonical : Obligations.StepKeepsMemoryCanonical := by
  intro s t hs h
  obtain ⟨-, rfl⟩ | ⟨-, k, rfl⟩ | ⟨-, -, i, -, hx, -⟩ := step_effect h
  · exact hs
  · exact hs
  · exact MemoryCanonical.after_exec (s := s.advance) hs hx

/-! Self-modifying code (R62). -/

/-- FX55 within memory stores its block (R164). -/
theorem exec_ldMemVx_of_fits (x : RegIdx) (s : State) (fits : s.i.toNat + x.val ≤ 4095) :
    exec (.ldMemVx x) s = .next (s.storeRegs (x.val + 1)) :=
  s.checked_of_fits _ _ _ (.inr (by omega))

@[simp] theorem State.storeRegs_status (s : State) (n : Nat) : (s.storeRegs n).status = s.status :=
  s.storeRegs_frame n .status (by simp [memBlock])

@[simp] theorem State.storeRegs_pc (s : State) (n : Nat) : (s.storeRegs n).pc = s.pc :=
  s.storeRegs_frame n .pc (by simp [memBlock])

/-- Two neighbouring registers of the block stand in memory as one word, the lower register its high byte (R53). -/
theorem State.storeRegs_wordAt (s : State) {n : Nat} (hn : n ≤ 16) (fits : s.i.toNat + n ≤ 4096) {k j : RegIdx}
    (hkj : j.val = k.val + 1) (hj : j.val < n) :
    (s.storeRegs n).wordAt (s.i.toNat + k.val) = Word.ofBytes (s.reg k) (s.reg j) := by
  have low := s.storeRegs_readMem n hn fits j hj
  rw [hkj, ← Nat.add_assoc] at low
  rw [State.wordAt, s.storeRegs_readMem n hn fits k (by omega), low]

/-- Settles O49: after the store the core still runs at the same PC, and the word there is the one stored. -/
theorem storedWordIsFetchedNext : Obligations.StoredWordIsFetchedNext := by
  intro x k j s i safe fits hkj hjx hpc hd
  have fetched : (s.storeRegs (x.val + 1)).wordAt (s.storeRegs (x.val + 1)).pc.toNat
      = Word.ofBytes (s.reg k) (s.reg j) := by
    rw [s.storeRegs_pc, hpc]
    exact s.storeRegs_wordAt (by omega) (by omega) hkj (by omega)
  refine ⟨_, exec_ldMemVx_of_fits x s fits, step_of_decode _ i ?running ?inMemory ?decoded⟩
  case running => rw [s.storeRegs_status]; exact safe
  case inMemory => rw [s.storeRegs_pc]; omega
  case decoded => rw [fetched]; exact hd

end Sys2Proof.Machine
end

section
/-! The decode table (R75): its rows are pairwise disjoint (R76), so that a word decodes to an instruction exactly if
some row, wherever it stands, fits the word and builds the instruction. -/

namespace Sys2Proof

@[simp] theorem nibbleFits_none (n : Nibble) : nibbleFits none n = true := rfl

@[simp] theorem nibbleFits_some {q n : Nibble} : nibbleFits (some q) n = true ↔ n = q :=
  beq_iff_eq.trans eq_comm

theorem rowFits_iff {r : Row} {f : Fields} :
    rowFits r f = true ↔ nibbleFits r.p1 f.op = true ∧ nibbleFits r.p2 f.x = true ∧ nibbleFits r.p3 f.y = true ∧
      nibbleFits r.p4 f.n = true := by
  simp only [rowFits, Bool.and_eq_true, and_assoc]

/-! Disjoint rows. -/

/-- Two patterns of a nibble that no nibble fits both of. -/
def nibblesClash (p q : Option Nibble) : Bool :=
  match p, q with
  | some a, some b => a != b
  | _, _ => false

/-- Two rows whose patterns clash in one of the four nibbles: a check on the table, with no word in it. -/
def rowsClash (a b : Row) : Bool :=
  nibblesClash a.p1 b.p1 || nibblesClash a.p2 b.p2 || nibblesClash a.p3 b.p3 || nibblesClash a.p4 b.p4

theorem nibblesClash.not_both {p q : Option Nibble} (clash : nibblesClash p q = true) {n : Nibble}
    (hp : nibbleFits p n = true) (hq : nibbleFits q n = true) : False := by
  cases p with
  | none => cases clash
  | some a =>
    cases q with
    | none => cases clash
    | some b => exact bne_iff_ne.mp clash ((nibbleFits_some.mp hp).symm.trans (nibbleFits_some.mp hq))

/-- No word fits both rows. -/
def RowsDisjoint (a b : Row) : Prop := ∀ w : Word, ¬ (rowFits a (fieldsOf w) = true ∧ rowFits b (fieldsOf w) = true)

theorem RowsDisjoint.symm {a b : Row} (h : RowsDisjoint a b) : RowsDisjoint b a := fun w both => h w both.symm

theorem rowsClash.disjoint {a b : Row} (clash : rowsClash a b = true) : RowsDisjoint a b := by
  rintro w ⟨ha, hb⟩
  obtain ⟨ha1, ha2, ha3, ha4⟩ := rowFits_iff.mp ha
  obtain ⟨hb1, hb2, hb3, hb4⟩ := rowFits_iff.mp hb
  simp only [rowsClash, Bool.or_eq_true] at clash
  obtain ((c1 | c2) | c3) | c4 := clash
  · exact nibblesClash.not_both c1 ha1 hb1
  · exact nibblesClash.not_both c2 ha2 hb2
  · exact nibblesClash.not_both c3 ha3 hb3
  · exact nibblesClash.not_both c4 ha4 hb4

/-- R76. -/
theorem decodeTable_disjoint : decodeTable.Pairwise RowsDisjoint :=
  (show decodeTable.Pairwise (fun a b => rowsClash a b = true) by decide).imp rowsClash.disjoint

/-! Decoding, with no order of the rows in it. -/

/-- Of disjoint rows the first that fits a word is the only one. -/
theorem decodeWith_eq_some_iff {rows : List Row} (disjoint : rows.Pairwise RowsDisjoint) {w : Word} {i : Instr} :
    decodeWith rows w = some i ↔ ∃ r ∈ rows, rowFits r (fieldsOf w) = true ∧ r.build (fieldsOf w) = i := by
  induction rows with
  | nil => simp [decodeWith]
  | cons r rest ih =>
    obtain ⟨hr, hrest⟩ := List.pairwise_cons.mp disjoint
    simp only [List.exists_mem_cons_iff]
    by_cases fits : rowFits r (fieldsOf w) = true
    · have others : ¬ ∃ q ∈ rest, rowFits q (fieldsOf w) = true ∧ q.build (fieldsOf w) = i :=
        fun ⟨q, hq, hfits, _⟩ => hr q hq w ⟨fits, hfits⟩
      simp [decodeWith, fits, others]
    · have skip : decodeWith (r :: rest) w = decodeWith rest w := by simp [decodeWith, fits]
      simp [skip, fits, ih hrest]

theorem decode_eq_some_iff {w : Word} {i : Instr} :
    decode w = some i ↔ ∃ r ∈ decodeTable, rowFits r (fieldsOf w) = true ∧ r.build (fieldsOf w) = i :=
  decodeWith_eq_some_iff decodeTable_disjoint

/-- The rows of the table in any order decode alike. -/
theorem decodeWith_of_perm {rows : List Row} (perm : rows.Perm decodeTable) (w : Word) :
    decodeWith rows w = decode w := by
  have disjoint : rows.Pairwise RowsDisjoint :=
    (perm.pairwise_iff RowsDisjoint.symm).mpr decodeTable_disjoint
  ext i
  simp only [decodeWith_eq_some_iff disjoint, decode_eq_some_iff, perm.mem_iff]

/-- Settles O6: any two rows clash in a nibble, and with disjoint rows decoding does not depend on their order. -/
theorem patternsAreDisjoint : Obligations.PatternsAreDisjoint :=
  ⟨rfl, decodeTable_disjoint, fun _ perm w => decodeWith_of_perm perm w⟩

end Sys2Proof
end

section
/-! Decoding undoes encoding and encoding undoes decoding (R72, R75), and the words encodings leave out are R77's. -/

namespace Sys2Proof

/-! From the instruction to its word and back. -/

theorem Instr.ctorIdx_lt_length (i : Instr) : i.ctorIdx < decodeTable.length := by
  cases i <;> exact Nat.le_of_ble_eq_true rfl

/-- The row of an instruction: one constructor per row, in the table's order (R75). -/
def Instr.row (i : Instr) : Row := decodeTable[i.ctorIdx]'i.ctorIdx_lt_length

/-- The word of an instruction fits the instruction's row, and the row reads the operands back from the word. -/
theorem row_of_encode (i : Instr) :
    rowFits i.row (fieldsOf (encode i)) = true ∧ i.row.build (fieldsOf (encode i)) = i := by
  cases i with
  | cls0000 | cls00E0 | ret => exact ⟨rfl, rfl⟩
  | jp nnn | call nnn | ldI nnn | jpV0 nnn => rw [encode, fieldsOf_nnn]; exact ⟨rfl, rfl⟩
  | seImm x nn | sneImm x nn | ldImm x nn | addImm x nn | rnd x nn => rw [encode, fieldsOf_xnn]; exact ⟨rfl, rfl⟩
  | seReg x y | sneReg x y => rw [encode, fieldsOf_xyn]; exact ⟨rfl, rfl⟩
  | ldReg x y | orReg x y | andReg x y | xorReg x y => rw [encode, fieldsOf_xyn]; exact ⟨rfl, rfl⟩
  | addReg x y | subReg x y | subn x y | shr x y | shl x y => rw [encode, fieldsOf_xyn]; exact ⟨rfl, rfl⟩
  | drw x y n => rw [encode, fieldsOf_xyn]; exact ⟨rfl, rfl⟩
  | skp x | sknp x => rw [encode, fieldsOf_xnn]; exact ⟨rfl, rfl⟩
  | ldVxDt x | ldVxK x | ldDtVx x | ldStVx x => rw [encode, fieldsOf_xnn]; exact ⟨rfl, rfl⟩
  | addI x | ldF x | ldB x | ldMemVx x | ldVxMem x => rw [encode, fieldsOf_xnn]; exact ⟨rfl, rfl⟩

/-- Settles O3: the instruction's own row fits its word, and the rows are disjoint. -/
theorem decodeOfEncode : Obligations.DecodeOfEncode := fun i =>
  decode_eq_some_iff.mpr ⟨i.row, List.getElem_mem _, row_of_encode i⟩

/-! A word is its fields side by side (R71), with a number in place of a field where the field is known. -/

section word
variable {w : Word} {a : Nibble} (op : w.toNat / 4096 = a.toNat)
include op

theorem nnn_eq_word : a ++ (fieldsOf w).nnn = w := by
  apply BitVec.eq_of_toNat_eq
  rw [toNat_nnn, fieldsOf_nnn_toNat]
  omega

theorem xnn_eq_word {b : Byte} (low : w.toNat % 256 = b.toNat) : a ++ (fieldsOf w).x ++ b = w := by
  apply BitVec.eq_of_toNat_eq
  rw [toNat_xnn, fieldsOf_x_toNat]
  omega

theorem xyn_eq_word {d : Nibble} (low : w.toNat % 16 = d.toNat) : a ++ (fieldsOf w).x ++ (fieldsOf w).y ++ d = w := by
  apply BitVec.eq_of_toNat_eq
  rw [toNat_xyn, fieldsOf_x_toNat, fieldsOf_y_toNat]
  omega

end word

/-! From the word to its instruction and back. -/

/-- What a row builds from a word that fits it encodes to that word. -/
def Row.WritesBack (r : Row) : Prop :=
  ∀ w : Word, rowFits r (fieldsOf w) = true → encode (r.build (fieldsOf w)) = w

/-- A row with no operand. -/
theorem writesBack_fixed {a b c d : Nibble} {i : Instr} (h : encode i = a ++ b ++ c ++ d) :
    Row.WritesBack ⟨some a, some b, some c, some d, fun _ => i⟩ := by
  intro w fits
  simp only [rowFits_iff, nibbleFits_some] at fits
  obtain ⟨rfl, rfl, rfl, rfl⟩ := fits
  exact h.trans (word_eq_nibbles w).symm

/-- A row of the form _NNN. -/
theorem writesBack_nnn {a : Nibble} (build : Addr12 → Instr) (h : ∀ nnn, encode (build nnn) = a ++ nnn) :
    Row.WritesBack ⟨some a, none, none, none, fun f => build f.nnn⟩ := by
  intro w fits
  simp only [rowFits_iff, nibbleFits_some, nibbleFits_none, and_true] at fits
  obtain rfl := fits
  exact (h _).trans (nnn_eq_word (fieldsOf_op_toNat w).symm)

/-- A row of the form _XNN. -/
theorem writesBack_xnn {a : Nibble} (build : RegIdx → Byte → Instr)
    (h : ∀ x nn, encode (build x nn) = a ++ regNibble x ++ nn) :
    Row.WritesBack ⟨some a, none, none, none, fun f => build f.x.reg f.nn⟩ := by
  intro w fits
  simp only [rowFits_iff, nibbleFits_some, nibbleFits_none, and_true] at fits
  obtain rfl := fits
  exact (h _ _).trans (xnn_eq_word (fieldsOf_op_toNat w).symm (fieldsOf_nn_toNat w).symm)

/-- A row of the form _XY_. -/
theorem writesBack_xy {a d : Nibble} (build : RegIdx → RegIdx → Instr)
    (h : ∀ x y, encode (build x y) = a ++ regNibble x ++ regNibble y ++ d) :
    Row.WritesBack ⟨some a, none, none, some d, fun f => build f.x.reg f.y.reg⟩ := by
  intro w fits
  simp only [rowFits_iff, nibbleFits_some, nibbleFits_none, true_and] at fits
  obtain ⟨rfl, rfl⟩ := fits
  exact (h _ _).trans (word_eq_nibbles w).symm

/-- A row of the form _X__. -/
theorem writesBack_x {a c d : Nibble} (build : RegIdx → Instr)
    (h : ∀ x, encode (build x) = a ++ regNibble x ++ (c ++ d)) :
    Row.WritesBack ⟨some a, none, some c, some d, fun f => build f.x.reg⟩ := by
  intro w fits
  simp only [rowFits_iff, nibbleFits_some, nibbleFits_none, true_and] at fits
  obtain ⟨rfl, rfl, rfl⟩ := fits
  exact (h _).trans ((nn_of_nibbles _ _ _ _).trans (word_eq_nibbles w).symm)

/-- A row of the form _XYN. -/
theorem writesBack_xyn {a : Nibble} (build : RegIdx → RegIdx → Nibble → Instr)
    (h : ∀ x y n, encode (build x y n) = a ++ regNibble x ++ regNibble y ++ n) :
    Row.WritesBack ⟨some a, none, none, none, fun f => build f.x.reg f.y.reg f.n⟩ := by
  intro w fits
  simp only [rowFits_iff, nibbleFits_some, nibbleFits_none, and_true] at fits
  obtain rfl := fits
  exact (h _ _ _).trans (word_eq_nibbles w).symm

theorem rowsControl_writeBack : ∀ r ∈ rowsControl, r.WritesBack := by
  simp only [rowsControl, List.forall_mem_cons]
  exact ⟨writesBack_fixed rfl, writesBack_fixed rfl, writesBack_fixed rfl,
    writesBack_nnn .jp fun _ => rfl, writesBack_nnn .call fun _ => rfl,
    writesBack_xnn .seImm fun _ _ => rfl, writesBack_xnn .sneImm fun _ _ => rfl,
    writesBack_xy .seReg fun _ _ => rfl,
    writesBack_xnn .ldImm fun _ _ => rfl, writesBack_xnn .addImm fun _ _ => rfl, List.forall_mem_nil _⟩

theorem rowsAlu_writeBack : ∀ r ∈ rowsAlu, r.WritesBack := by
  simp only [rowsAlu, List.forall_mem_cons]
  exact ⟨writesBack_xy .ldReg fun _ _ => rfl, writesBack_xy .orReg fun _ _ => rfl,
    writesBack_xy .andReg fun _ _ => rfl, writesBack_xy .xorReg fun _ _ => rfl,
    writesBack_xy .addReg fun _ _ => rfl, writesBack_xy .subReg fun _ _ => rfl,
    writesBack_xy .shr fun _ _ => rfl, writesBack_xy .subn fun _ _ => rfl,
    writesBack_xy .shl fun _ _ => rfl, List.forall_mem_nil _⟩

theorem rowsMiddle_writeBack : ∀ r ∈ rowsMiddle, r.WritesBack := by
  simp only [rowsMiddle, List.forall_mem_cons]
  exact ⟨writesBack_xy .sneReg fun _ _ => rfl, writesBack_nnn .ldI fun _ => rfl,
    writesBack_nnn .jpV0 fun _ => rfl, writesBack_xnn .rnd fun _ _ => rfl, writesBack_xyn .drw fun _ _ _ => rfl,
    writesBack_x .skp fun _ => rfl, writesBack_x .sknp fun _ => rfl, List.forall_mem_nil _⟩

theorem rowsMisc_writeBack : ∀ r ∈ rowsMisc, r.WritesBack := by
  simp only [rowsMisc, List.forall_mem_cons]
  exact ⟨writesBack_x .ldVxDt fun _ => rfl, writesBack_x .ldVxK fun _ => rfl,
    writesBack_x .ldDtVx fun _ => rfl, writesBack_x .ldStVx fun _ => rfl,
    writesBack_x .addI fun _ => rfl, writesBack_x .ldF fun _ => rfl, writesBack_x .ldB fun _ => rfl,
    writesBack_x .ldMemVx fun _ => rfl, writesBack_x .ldVxMem fun _ => rfl, List.forall_mem_nil _⟩

theorem decodeTable_writesBack : ∀ r ∈ decodeTable, r.WritesBack := by
  simp only [decodeTable, List.forall_mem_append]
  exact ⟨⟨⟨rowsControl_writeBack, rowsAlu_writeBack⟩, rowsMiddle_writeBack⟩, rowsMisc_writeBack⟩

/-- Settles O4: the row that fits the word writes it back. -/
theorem encodeOfDecode : Obligations.EncodeOfDecode := by
  intro w i h
  obtain ⟨r, hr, fits, rfl⟩ := decode_eq_some_iff.mp h
  exact decodeTable_writesBack r hr w fits

/-! The legal words are the encodings. -/

/-- Every encoding is a legal word: the law of each instruction, in the table's order. -/
theorem encode_legal (i : Instr) : (encode i).legal = true :=
  open Laws.EncodesLegal in
  Instr.casesOn (motive := Statement) i cls0000 cls00E0 ret jp call seImm sneImm seReg ldImm addImm
    ldReg orReg andReg xorReg addReg subReg shr subn shl sneReg ldI jpV0 rnd drw skp sknp
    ldVxDt ldVxK ldDtVx ldStVx addI ldF ldB ldMemVx ldVxMem

section groups
variable {w : Word}

/-- The groups in which every word is legal. -/
theorem exists_encode_of_group (h : w.toNat / 4096 ∈ [1, 2, 3, 4, 6, 7, 10, 11, 12, 13]) : ∃ i, encode i = w := by
  simp only [List.mem_cons, List.not_mem_nil, or_false] at h
  have nn := (fieldsOf_nn_toNat w).symm
  have n := (fieldsOf_n_toNat w).symm
  obtain h | h | h | h | h | h | h | h | h | h := h
  · exact ⟨.jp (fieldsOf w).nnn, nnn_eq_word h⟩
  · exact ⟨.call (fieldsOf w).nnn, nnn_eq_word h⟩
  · exact ⟨.seImm (fieldsOf w).x.reg (fieldsOf w).nn, xnn_eq_word h nn⟩
  · exact ⟨.sneImm (fieldsOf w).x.reg (fieldsOf w).nn, xnn_eq_word h nn⟩
  · exact ⟨.ldImm (fieldsOf w).x.reg (fieldsOf w).nn, xnn_eq_word h nn⟩
  · exact ⟨.addImm (fieldsOf w).x.reg (fieldsOf w).nn, xnn_eq_word h nn⟩
  · exact ⟨.ldI (fieldsOf w).nnn, nnn_eq_word h⟩
  · exact ⟨.jpV0 (fieldsOf w).nnn, nnn_eq_word h⟩
  · exact ⟨.rnd (fieldsOf w).x.reg (fieldsOf w).nn, xnn_eq_word h nn⟩
  · exact ⟨.drw (fieldsOf w).x.reg (fieldsOf w).y.reg (fieldsOf w).n, xyn_eq_word h n⟩

theorem exists_encode_of_alu (op : w.toNat / 4096 = 8) (h : w.toNat % 16 ∈ [0, 1, 2, 3, 4, 5, 6, 7, 14]) :
    ∃ i, encode i = w := by
  simp only [List.mem_cons, List.not_mem_nil, or_false] at h
  obtain h | h | h | h | h | h | h | h | h := h
  · exact ⟨.ldReg (fieldsOf w).x.reg (fieldsOf w).y.reg, xyn_eq_word op h⟩
  · exact ⟨.orReg (fieldsOf w).x.reg (fieldsOf w).y.reg, xyn_eq_word op h⟩
  · exact ⟨.andReg (fieldsOf w).x.reg (fieldsOf w).y.reg, xyn_eq_word op h⟩
  · exact ⟨.xorReg (fieldsOf w).x.reg (fieldsOf w).y.reg, xyn_eq_word op h⟩
  · exact ⟨.addReg (fieldsOf w).x.reg (fieldsOf w).y.reg, xyn_eq_word op h⟩
  · exact ⟨.subReg (fieldsOf w).x.reg (fieldsOf w).y.reg, xyn_eq_word op h⟩
  · exact ⟨.shr (fieldsOf w).x.reg (fieldsOf w).y.reg, xyn_eq_word op h⟩
  · exact ⟨.subn (fieldsOf w).x.reg (fieldsOf w).y.reg, xyn_eq_word op h⟩
  · exact ⟨.shl (fieldsOf w).x.reg (fieldsOf w).y.reg, xyn_eq_word op h⟩

theorem exists_encode_of_misc (op : w.toNat / 4096 = 15)
    (h : w.toNat % 256 ∈ [0x07, 0x0A, 0x15, 0x18, 0x1E, 0x29, 0x33, 0x55, 0x65]) : ∃ i, encode i = w := by
  simp only [List.mem_cons, List.not_mem_nil, or_false] at h
  obtain h | h | h | h | h | h | h | h | h := h
  · exact ⟨.ldVxDt (fieldsOf w).x.reg, xnn_eq_word op h⟩
  · exact ⟨.ldVxK (fieldsOf w).x.reg, xnn_eq_word op h⟩
  · exact ⟨.ldDtVx (fieldsOf w).x.reg, xnn_eq_word op h⟩
  · exact ⟨.ldStVx (fieldsOf w).x.reg, xnn_eq_word op h⟩
  · exact ⟨.addI (fieldsOf w).x.reg, xnn_eq_word op h⟩
  · exact ⟨.ldF (fieldsOf w).x.reg, xnn_eq_word op h⟩
  · exact ⟨.ldB (fieldsOf w).x.reg, xnn_eq_word op h⟩
  · exact ⟨.ldMemVx (fieldsOf w).x.reg, xnn_eq_word op h⟩
  · exact ⟨.ldVxMem (fieldsOf w).x.reg, xnn_eq_word op h⟩

/-- Every legal word is an encoding, group by group of R77. -/
theorem exists_encode_of_legal (h : w.legal = true) : ∃ i, encode i = w := by
  simp only [Word.legal] at h
  split at h
  next =>
    simp only [Bool.or_eq_true, beq_iff_eq] at h
    obtain (h | h) | h := h
    · exact ⟨.cls0000, BitVec.eq_of_toNat_eq h.symm⟩
    · exact ⟨.cls00E0, BitVec.eq_of_toNat_eq h.symm⟩
    · exact ⟨.ret, BitVec.eq_of_toNat_eq h.symm⟩
  next op => exact ⟨.seReg (fieldsOf w).x.reg (fieldsOf w).y.reg, xyn_eq_word op (beq_iff_eq.mp h)⟩
  next op =>
    simp only [Bool.or_eq_true, beq_iff_eq, decide_eq_true_eq] at h
    refine exists_encode_of_alu op ?_
    simp only [List.mem_cons, List.not_mem_nil, or_false]
    omega
  next op => exact ⟨.sneReg (fieldsOf w).x.reg (fieldsOf w).y.reg, xyn_eq_word op (beq_iff_eq.mp h)⟩
  next op =>
    simp only [Bool.or_eq_true, beq_iff_eq] at h
    obtain h | h := h
    · exact ⟨.skp (fieldsOf w).x.reg, xnn_eq_word op h⟩
    · exact ⟨.sknp (fieldsOf w).x.reg, xnn_eq_word op h⟩
  next op => exact exists_encode_of_misc op (List.contains_iff_mem.mp h)
  next =>
    have := w.isLt
    -- `split` says `_ = 5 → False` of the other groups, which `omega` reads only as `¬ _ = 5`.
    simp only [imp_false] at *
    refine exists_encode_of_group ?_
    simp only [List.mem_cons, List.not_mem_nil, or_false]
    omega

end groups

theorem legal_iff_exists_encode {w : Word} : w.legal = true ↔ ∃ i, encode i = w :=
  ⟨exists_encode_of_legal, fun ⟨i, hi⟩ => hi ▸ encode_legal i⟩

/-- Decoding and encoding undo each other, so that a word decodes exactly if it is an encoding. -/
theorem decode_eq_none_iff {w : Word} : decode w = none ↔ ¬ ∃ i, encode i = w := by
  constructor
  · rintro rejected ⟨i, rfl⟩
    rw [decodeOfEncode i] at rejected
    cases rejected
  · intro noInstr
    cases hd : decode w with
    | none => rfl
    | some i => exact absurd ⟨i, encodeOfDecode w i hd⟩ noInstr

/-- Settles O5: a word is rejected exactly if it is no encoding, and the encodings are the legal words. -/
theorem rejectedWordsAreIllegalWords : Obligations.RejectedWordsAreIllegalWords := by
  intro w
  rw [decode_eq_none_iff, ← legal_iff_exists_encode, Bool.not_eq_true]

/-- Settles O2: a legal sample is the encoding of its instruction, and an illegal one is in R77's table. -/
theorem sampleWordsDecode : Obligations.SampleWordsDecode := by
  have encoded (i : Instr) : decode (encode i) = some i := decodeOfEncode i
  have rejected (w : Word) (illegal : w.legal = false) : decode w = none :=
    (rejectedWordsAreIllegalWords w).mpr illegal
  exact ⟨encoded .cls0000, encoded .cls00E0, encoded .ret, encoded (.call 0xABC), encoded (.seImm 0xA 0x12),
    encoded (.subReg 0xA 0xB), encoded (.shl 0xA 0xB), encoded (.jpV0 0xABC), encoded (.drw 0xA 0xB 5),
    encoded (.sknp 0xA), encoded (.ldB 0xA), encoded (.ldVxMem 0xA),
    rejected 0x00E1 rfl, rejected 0x0ABC rfl, rejected 0x8AB8 rfl, rejected 0xFA75 rfl⟩

end Sys2Proof
end

section
/-! The step of a running core up to the instruction it decodes (R77, R80, R81). -/

namespace Sys2Proof.Machine

/-- Settles O7: the two bytes at PC are the word the step fetches, and the advance writes PC only. -/
theorem stepRunsDecodedInstruction : Obligations.StepRunsDecodedInstruction := by
  intro s i safe inMemory hd
  have advanced : s.advance.pc.toNat = (s.pc.toNat + 2) % 65536 := BitVec.toNat_add s.pc 2
  exact ⟨step_of_decode s i safe (Nat.le_of_succ_le_succ inMemory) hd, advanced, frame_setPc s _⟩

/-- Settles O8: the lowest address above 4095 is PC, or PC + 1 when PC is 4095. -/
theorem fetchOutOfRangeFaults : Obligations.FetchOutOfRangeFaults := by
  intro s safe outside
  have lowest : max s.pc.toNat 4096 = if s.pc.toNat > 4095 then s.pc.toNat else s.pc.toNat + 1 := by
    split_ifs <;> omega
  exact ⟨_, step_of_fetch_fault s safe (by omega), lowest ▸ s.takeFault_faultedFrom s.pc _⟩

/-- Settles O9: the decoder rejects an illegal word, and the step then takes the fault at PC. -/
theorem illegalWordFaults : Obligations.IllegalWordFaults := by
  intro s w safe inMemory fetched illegal
  obtain rfl : w = s.wordAt s.pc.toNat := fetched
  have rejected := (rejectedWordsAreIllegalWords _).mpr illegal
  exact ⟨_, step_of_illegal s safe (Nat.le_of_succ_le_succ inMemory) rejected, s.takeFault_faultedFrom s.pc _⟩

end Sys2Proof.Machine
end

section
/-! The display instructions (spec/40_display.md): clear-screen, a draw cell by cell, and a draw undone by itself. -/

namespace Sys2Proof.Machine

/-- The word an instruction is encoded to stands for it, since decoding undoes encoding. -/
theorem encodes_encode (i : Instr) : Encodes (encode i) i := ⟨decodeOfEncode i, rfl⟩

/-- Settles O23: both instructions answer the display that is OFF everywhere, and `setDisp` writes only cells. -/
theorem clearScreen : Obligations.ClearScreen := by
  refine ⟨encodes_encode .cls0000, encodes_encode .cls00E0, ?_⟩
  intro i s hi
  have cleared : exec i s = .next (s.setDisp Display.off) := by
    obtain rfl | rfl := hi <;> rfl
  exact ⟨_, cleared, Display.off_cell, frame_setDisp s _⟩

/-! A flag as a byte (R21). -/

@[simp] theorem flagByte_eq_one {b : Bool} : flagByte b = 1 ↔ b = true := by cases b <;> decide

@[simp] theorem flagByte_eq_zero {b : Bool} : flagByte b = 0 ↔ b = false := by cases b <;> decide

@[simp] theorem State.setFlag_reg_flag (s : State) (b : Bool) : (s.setFlag b).reg 15 = flagByte b := by
  rw [State.setFlag, State.setReg_reg, if_pos rfl]

/-! The state a draw leaves (R102). -/

/-- The state DXYN answers when every byte of the sprite is in memory. -/
def State.drawn (s : State) (x y : RegIdx) (n : Nibble) : State :=
  (s.setDisp (s.drawSprite (s.reg x) (s.reg y) n.toNat).1).setFlag (s.drawSprite (s.reg x) (s.reg y) n.toNat).2

section drawn
variable (s : State) (x y : RegIdx) (n : Nibble)

theorem exec_drw_of_fits (fits : n.toNat = 0 ∨ s.i.toNat + n.toNat ≤ 4096) :
    exec (.drw x y n) s = .next (s.drawn x y n) :=
  s.checked_of_fits _ _ _ fits

theorem exec_drw_of_bad (rows : n.toNat ≠ 0) (outside : s.i.toNat + n.toNat > 4096) :
    exec (.drw x y n) s = .next (s.takeFault (s.pc - 2) (.memoryOutOfRange (lowestBad s.i.toNat))) :=
  s.checked_of_bad _ _ _ rows outside

theorem State.drawn_cell (cx : Fin 64) (cy : Fin 32) :
    (s.drawn x y n).disp.cell cx cy = true ↔ ¬ (s.disp.cell cx cy = true ↔ Covered s x y n cx cy) :=
  (s.drawSprite_spec x y n).1 cx cy

theorem State.drawn_flag_eq_one :
    (s.drawn x y n).reg 15 = 1 ↔ ∃ cx cy, Covered s x y n cx cy ∧ s.disp.cell cx cy = true := by
  rw [State.drawn, State.setFlag_reg_flag, flagByte_eq_one, (s.drawSprite_spec x y n).2]

theorem State.drawn_flag_eq_zero :
    (s.drawn x y n).reg 15 = 0 ↔ ∀ cx cy, Covered s x y n cx cy → s.disp.cell cx cy = false := by
  rw [State.drawn, State.setFlag_reg_flag, flagByte_eq_zero, ← Bool.not_eq_true, (s.drawSprite_spec x y n).2]
  simp only [not_exists, not_and, Bool.not_eq_true]

theorem State.drawn_frame : Frame ({.v 15} ∪ displayCells) s (s.drawn x y n) :=
  ((frame_setDisp s _).comp (frame_setReg _ 15 _)).mono (Set.union_comm _ _).subset

end drawn

/-- Settles O24: within memory the instruction answers the drawn state, outside it the check of R54 faults. -/
theorem drawSprite : Obligations.DrawSprite := by
  intro x y n
  refine ⟨encodes_encode (.drw x y n), fun s => ⟨fun fits => ?runs, fun ⟨rows, outside⟩ => ?faults⟩⟩
  case runs =>
    exact ⟨_, exec_drw_of_fits s x y n fits, s.drawn_cell x y n, (s.drawn_flag_eq_one x y n).mpr,
      (s.drawn_flag_eq_zero x y n).mpr, s.drawn_frame x y n⟩
  case faults =>
    exact ⟨_, exec_drw_of_bad s x y n (by omega) (by omega), s.takeFault_faultedFrom _ _⟩

/-! Drawing twice (L1-5). -/

/-- A draw reads its coordinates, I and the sprite, so that two states which differ in VF and the display only have
the same cells covered, unless VF is a coordinate. -/
theorem Frame.covered_iff {s t : State} (h : Frame ({.v 15} ∪ displayCells) s t) {x y : RegIdx} (hx : x ≠ 15)
    (hy : y ≠ 15) (n : Nibble) (cx : Fin 64) (cy : Fin 32) : Covered t x y n cx cy ↔ Covered s x y n cx cy := by
  have regs : ∀ r : RegIdx, r ≠ 15 → t.reg r = s.reg r := fun r hr => h (.v r) (by simp [displayCells, hr])
  have index : t.i = s.i := h .i (by simp [displayCells])
  have bytes : ∀ a, t.readMem a = s.readMem a := fun a => h (.mem a) (by simp [displayCells])
  simp only [Covered, regs x hx, regs y hy, index, bytes]

/-- If the display did not change either, only VF did. -/
theorem Frame.of_same_cells {c : Set Part} {s t : State} (h : Frame (c ∪ displayCells) s t)
    (same : ∀ cx cy, t.disp.cell cx cy = s.disp.cell cx cy) : Frame c s t := by
  intro p hp
  by_cases cell : p ∈ displayCells
  · obtain ⟨cx, cy, rfl⟩ := cell
    exact same cx cy
  · exact h p (fun hc => hc.elim hp cell)

/-- Settles O25: both draws cover the same cells, a cell toggled twice is as it was, and a covered cell is ON before
the second draw exactly if it was OFF before the first. -/
theorem drawTwiceRestoresDisplay : Obligations.DrawTwiceRestoresDisplay := by
  intro x y n s hx hy fits
  have framed := s.drawn_frame x y n
  have covered := framed.covered_iff hx hy n
  have index : (s.drawn x y n).i = s.i := rfl
  have restored : ∀ cx cy, ((s.drawn x y n).drawn x y n).disp.cell cx cy = s.disp.cell cx cy := by
    intro cx cy
    rw [Bool.eq_iff_iff, State.drawn_cell, State.drawn_cell, covered]
    tauto
  refine ⟨_, _, exec_drw_of_fits s x y n (.inr fits), exec_drw_of_fits _ x y n (.inr (index ▸ fits)), restored, ?_,
    (framed.trans (State.drawn_frame _ x y n)).of_same_cells restored⟩
  rw [State.drawn_flag_eq_one]
  refine exists_congr fun cx => exists_congr fun cy => ?_
  rw [covered, and_congr_right_iff, State.drawn_cell, ← Bool.not_eq_true]
  tauto

end Sys2Proof.Machine
end

section
/-! The control transfer instructions (spec/41_control_flow.md): jumps, calls and returns, and skips. -/

namespace Sys2Proof.Machine

/-! Jumps (R111, R117). -/

theorem Byte.zext_toNat (b : Byte) : b.zext.toNat = b.toNat := by
  rw [Byte.zext, BitVec.toNat_setWidth_of_le (by decide)]

/-- The sum is at most 0xFF + 0xFFF, so that it does not wrap (R117). -/
theorem jumpIndexedTarget_toNat (b : Byte) (nnn : Addr12) :
    (jumpIndexedTarget b nnn).toNat = b.toNat + nnn.toNat := by
  have hb := b.isLt
  have hn := nnn.isLt
  rw [jumpIndexedTarget, BitVec.toNat_add, Byte.zext_toNat, Addr12.zext_toNat, Nat.mod_eq_of_lt (by omega)]

/-- Settles O26: the jump writes PC only, with the operand as a word. -/
theorem jumpAbsolute : Obligations.JumpAbsolute := fun nnn =>
  ⟨encodes_encode (.jp nnn), fun s => ⟨s.setPc nnn.zext, rfl, Addr12.zext_toNat nnn, frame_setPc s _⟩⟩

/-- Settles O32: the jump writes PC only, with the sum, which fits in 16 bits. -/
theorem jumpIndexed : Obligations.JumpIndexed := fun nnn =>
  ⟨encodes_encode (.jpV0 nnn), fun s =>
    ⟨s.setPc (jumpIndexedTarget (s.reg 0) nnn), rfl, jumpIndexedTarget_toNat _ nnn, frame_setPc s _⟩⟩

/-! Calls and returns (R110, R112). -/

section stack
variable (s : State)

/-- 2NNN where the stack has room: `k` is the entry at SP. -/
theorem exec_call_of_room (nnn : Addr12) {k : Fin 16} (hk : k.val = s.sp.val) :
    ∃ t, exec (.call nnn) s = .next t ∧ t.entry k = s.pc ∧ t.sp.val = s.sp.val + 1 ∧ t.pc.toNat = nnn.toNat ∧
      Frame {.pc, .sp, .stack k} s t := by
  obtain ⟨t, pushed, entry, sp, -, -, framed⟩ := s.push_spec s.pc k hk
  have called : exec (.call nnn) s = .next (t.setPc nnn.zext) := by rw [exec, execCall, pushed]
  exact ⟨_, called, entry, sp, Addr12.zext_toNat nnn,
    (framed.comp (frame_setPc t _)).mono (Set.union_comm _ _).subset⟩

theorem exec_call_of_full (nnn : Addr12) (full : s.sp.val = 16) :
    exec (.call nnn) s = .next (s.takeFault (s.pc - 2) .stackOverflow) := by
  rw [exec, execCall, s.push_full s.pc full, State.raise]

/-- 00EE where the stack holds an entry: `k` is the last one pushed. -/
theorem exec_ret_of_entry {k : Fin 16} (hk : k.val + 1 = s.sp.val) :
    ∃ t, exec .ret s = .next t ∧ t.pc = s.entry k ∧ t.sp.val = k.val ∧ Frame {.pc, .sp} s t := by
  obtain ⟨t, popped, sp, -, -, framed⟩ := s.pop_spec k hk
  have returned : exec .ret s = .next (t.setPc (s.entry k)) := by rw [exec, execRet, popped]
  exact ⟨_, returned, rfl, sp, (framed.comp (frame_setPc t _)).mono (Set.union_comm _ _).subset⟩

theorem exec_ret_of_empty (empty : s.sp.val = 0) :
    exec .ret s = .next (s.takeFault (s.pc - 2) .stackUnderflow) := by
  rw [exec, execRet, s.pop_empty empty, State.raise]

end stack

/-- Settles O27: with room the push succeeds, with SP = 16 it answers nothing and the call faults. -/
theorem callSubroutine : Obligations.CallSubroutine := fun nnn =>
  ⟨encodes_encode (.call nnn), fun s =>
    ⟨fun _ hk => exec_call_of_room s nnn hk,
      fun full => ⟨_, exec_call_of_full s nnn full, s.takeFault_faultedFrom _ _⟩⟩⟩

/-- Settles O28: with an entry the pop succeeds, with SP = 0 it answers nothing and the return faults. -/
theorem returnFromSubroutine : Obligations.ReturnFromSubroutine :=
  ⟨encodes_encode .ret, fun s =>
    ⟨fun _ hk => exec_ret_of_entry s hk,
      fun empty => ⟨_, exec_ret_of_empty s empty, s.takeFault_faultedFrom _ _⟩⟩⟩

/-- A part that holds what it held is not among the changed ones. -/
theorem Frame.of_insert {c : Set Part} {p : Part} {s t : State} (h : Frame (insert p c) s t) (same : SameAt s t p) :
    Frame c s t := by
  intro q hq
  by_cases e : q = p
  · exact e ▸ same
  · exact h q fun changed => changed.elim e hq

/-- Settles O29: the return pops the entry the call pushed, wherever the subroutine ends. PC and SP then hold what they
held, which leaves the entry as the one part changed. -/
theorem callThenReturn : Obligations.CallThenReturn := by
  intro nnn s p k hk
  obtain ⟨t, called, pushed, raised, -, callFrame⟩ := exec_call_of_room s nnn hk
  have atEntry : k.val + 1 = (t.setPc p).sp.val := by rw [hk]; exact raised.symm
  obtain ⟨u, returned, popped, lowered, retFrame⟩ := exec_ret_of_entry (t.setPc p) atEntry
  have resumed : u.pc = s.pc := popped.trans pushed
  have depth : u.sp = s.sp := Fin.ext (lowered.trans hk)
  have both : Frame {.pc, .sp, .stack k} s u :=
    (callFrame.trans ((frame_setPc t p).mono (by simp))).trans (retFrame.mono (by simp [Set.insert_subset_iff]))
  exact ⟨t, u, called, returned, resumed, (both.of_insert resumed).of_insert depth⟩

/-! Skips (R113 to R116). -/

section skip
variable (s : State) (a b : Byte)

theorem State.skipIf_beq_pc : (s.skipIf (a == b)).pc = if a = b then s.pc + 2 else s.pc := by
  by_cases h : a = b
  · rw [beq_iff_eq.mpr h, if_pos h]; rfl
  · rw [beq_eq_false_iff_ne.mpr h, if_neg h]; rfl

theorem State.skipIf_bne_pc : (s.skipIf (a != b)).pc = if a = b then s.pc else s.pc + 2 := by
  by_cases h : a = b
  · rw [bne_eq_false_iff_eq.mpr h, if_pos h]; rfl
  · rw [bne_iff_ne.mpr h, if_neg h]; rfl

end skip

/-- Settles O30: each skip is a `skipIf` on the comparison of V[X] with NN. -/
theorem skipsOnImmediate : Obligations.SkipsOnImmediate := fun x nn =>
  ⟨encodes_encode (.seImm x nn), encodes_encode (.sneImm x nn), fun s =>
    ⟨⟨_, rfl, s.skipIf_beq_pc _ _, frame_skipIf s _⟩, ⟨_, rfl, s.skipIf_bne_pc _ _, frame_skipIf s _⟩⟩⟩

/-- Settles O31: each skip is a `skipIf` on the comparison of V[X] with V[Y]. -/
theorem skipsOnRegisters : Obligations.SkipsOnRegisters := fun x y =>
  ⟨encodes_encode (.seReg x y), encodes_encode (.sneReg x y), fun s =>
    ⟨⟨_, rfl, s.skipIf_beq_pc _ _, frame_skipIf s _⟩, ⟨_, rfl, s.skipIf_bne_pc _ _, frame_skipIf s _⟩⟩⟩

end Sys2Proof.Machine
end

section
/-! The register and arithmetic instructions (spec/42_alu.md): one register written, a result with a flag, and the
shifts, which read V[X] again after VF is written. -/

namespace Sys2Proof.Machine

/-! Registers after a write. -/

theorem State.setReg_reg_self (s : State) (r : RegIdx) (b : Byte) : (s.setReg r b).reg r = b := by
  rw [State.setReg_reg, if_pos rfl]

theorem State.setReg_reg_of_ne (s : State) {r q : RegIdx} (hq : q ≠ r) (b : Byte) :
    (s.setReg r b).reg q = s.reg q := by
  rw [State.setReg_reg, if_neg hq]

theorem State.setFlag_reg_of_ne (s : State) {q : RegIdx} (hq : q ≠ 15) (b : Bool) :
    (s.setFlag b).reg q = s.reg q :=
  s.setReg_reg_of_ne hq _

/-! One register written, no flag (R130 to R135). -/

/-- Settles O33: the instruction writes V[X] only, with NN. -/
theorem loadImmediate : Obligations.LoadImmediate := fun x nn =>
  ⟨encodes_encode (.ldImm x nn), fun s => ⟨s.setReg x nn, rfl, s.setReg_reg_self x nn, frame_setReg s x nn⟩⟩

/-- Settles O34: the instruction writes V[X] only, with V[Y]. -/
theorem moveRegister : Obligations.MoveRegister := fun x y =>
  ⟨encodes_encode (.ldReg x y), fun s =>
    ⟨s.setReg x (s.reg y), rfl, s.setReg_reg_self x _, frame_setReg s x _⟩⟩

/-- Settles O35: the instruction writes V[X] only, with a sum of bytes, which is one modulo 256. -/
theorem addImmediate : Obligations.AddImmediate := by
  refine fun x nn => ⟨encodes_encode (.addImm x nn), fun s => ⟨s.setReg x (s.reg x + nn), rfl, ?_, frame_setReg s x _⟩⟩
  rw [State.setReg_reg_self, BitVec.toNat_add]

/-- Settles O36: each instruction writes V[X] only, and the operations on bytes act bit by bit. -/
theorem logicInstructions : Obligations.LogicInstructions := by
  refine fun x y => ⟨encodes_encode (.orReg x y), encodes_encode (.andReg x y), encodes_encode (.xorReg x y), fun s =>
    ⟨⟨s.setReg x (s.reg x ||| s.reg y), rfl, frame_setReg s x _, fun b => ?_⟩,
      ⟨s.setReg x (s.reg x &&& s.reg y), rfl, frame_setReg s x _, fun b => ?_⟩,
      ⟨s.setReg x (s.reg x ^^^ s.reg y), rfl, frame_setReg s x _, fun b => ?_⟩⟩⟩
  · rw [State.setReg_reg_self, BitVec.getLsbD_or]
  · rw [State.setReg_reg_self, BitVec.getLsbD_and]
  · rw [State.setReg_reg_self, BitVec.getLsbD_xor]

/-! A random byte (R141, R150). -/

theorem frame_drawByte_setReg (s : State) (x : RegIdx) (b : Byte) :
    Frame {.v x, .draws} s (s.drawByte.2.setReg x b) :=
  ((frame_drawByte s).comp (frame_setReg _ x b)).mono (Set.union_comm _ _).subset

/-- Settles O41: the draw advances its counter only, and V[X] is then written with the drawn byte AND NN. -/
theorem randomAnd : Obligations.RandomAnd := by
  refine fun x nn => ⟨encodes_encode (.rnd x nn), fun s =>
    ⟨s.drawByte.2.setReg x (s.drawByte.1 &&& nn), rfl, fun b => ?_, rfl, frame_drawByte_setReg s x _⟩⟩
  rw [State.setReg_reg_self, BitVec.getLsbD_and, State.drawByte_fst]

/-! A result, then a flag (R136, R137, R139): VF ends as the flag even where it is V[X] (R146, D5). -/

theorem State.setReg_setFlag_reg (s : State) {x : RegIdx} (hx : x ≠ 15) (b : Byte) (f : Bool) :
    ((s.setReg x b).setFlag f).reg x = b :=
  (State.setFlag_reg_of_ne _ hx f).trans (s.setReg_reg_self x b)

theorem flagByte_carryOut (a b : Byte) : flagByte (carryOut a b) = if a.toNat + b.toNat > 255 then 1 else 0 := by
  simp only [flagByte, carryOut, decide_eq_true_eq]

theorem flagByte_notBorrow (a b : Byte) : flagByte (notBorrow a b) = if a.toNat ≥ b.toNat then 1 else 0 := by
  simp only [flagByte, notBorrow, decide_eq_true_eq]

/-- The difference of two bytes, taken in the integers and brought back modulo 256 (R145). -/
theorem Byte.toNat_sub_int (a b : Byte) : ((a - b).toNat : Int) = (a.toNat - b.toNat : Int) % 256 := by
  have hb := b.isLt
  rw [BitVec.toNat_sub]
  omega

/-- Settles O37: the sum of the old bytes goes to V[X] and their carry to VF. -/
theorem addWithCarry : Obligations.AddWithCarry := by
  refine fun x y => ⟨encodes_encode (.addReg x y), fun s =>
    ⟨(s.setReg x (s.reg x + s.reg y)).setFlag (carryOut (s.reg x) (s.reg y)), rfl, fun hx => ?sum, ?carry,
      frame_setReg_setFlag s x _ _⟩⟩
  case sum => rw [s.setReg_setFlag_reg hx, BitVec.toNat_add]
  case carry => rw [State.setFlag_reg_flag, flagByte_carryOut]

/-- The state a subtraction answers: `a` − `b` in V[X], and then not-borrow in VF. -/
def State.subtracted (s : State) (x : RegIdx) (a b : Byte) : State := (s.setReg x (a - b)).setFlag (notBorrow a b)

theorem exec_subReg (x y : RegIdx) (s : State) :
    exec (.subReg x y) s = .next (s.subtracted x (s.reg x) (s.reg y)) := rfl

theorem exec_subn (x y : RegIdx) (s : State) :
    exec (.subn x y) s = .next (s.subtracted x (s.reg y) (s.reg x)) := rfl

section subtracted
variable (s : State) (a b : Byte)

theorem State.subtracted_reg {x : RegIdx} (hx : x ≠ 15) :
    (((s.subtracted x a b).reg x).toNat : Int) = (a.toNat - b.toNat : Int) % 256 := by
  rw [State.subtracted, s.setReg_setFlag_reg hx, Byte.toNat_sub_int]

theorem State.subtracted_flag (x : RegIdx) :
    (s.subtracted x a b).reg 15 = if a.toNat ≥ b.toNat then 1 else 0 := by
  rw [State.subtracted, State.setFlag_reg_flag, flagByte_notBorrow]

theorem State.subtracted_frame (x : RegIdx) : Frame {.v x, .v 15} s (s.subtracted x a b) :=
  frame_setReg_setFlag s x _ _

end subtracted

/-- Settles O38: the two instructions are one subtraction with its operands in the one and the other order. -/
theorem subtractions : Obligations.Subtractions := fun x y =>
  ⟨encodes_encode (.subReg x y), encodes_encode (.subn x y), fun s =>
    ⟨⟨_, exec_subReg x y s, s.subtracted_reg _ _, s.subtracted_flag _ _ x, s.subtracted_frame _ _ x⟩,
      ⟨_, exec_subn x y s, s.subtracted_reg _ _, s.subtracted_flag _ _ x, s.subtracted_frame _ _ x⟩⟩⟩

/-! A flag, then V[X] read again and shifted (R138, R140): where V[X] is VF, the flag is shifted (R146, D4). -/

/-- The state a shift answers: `out` the bit shifted out, `shift` the shift. -/
def State.shifted (s : State) (x : RegIdx) (out : Byte → Bool) (shift : Byte → Byte) : State :=
  (s.setFlag (out (s.reg x))).setReg x (shift ((s.setFlag (out (s.reg x))).reg x))

theorem exec_shr (x y : RegIdx) (s : State) : exec (.shr x y) s = .next (s.shifted x lowBit (· >>> 1)) := rfl

theorem exec_shl (x y : RegIdx) (s : State) : exec (.shl x y) s = .next (s.shifted x highBit (· <<< 1)) := rfl

section shifted
variable (s : State) (out : Byte → Bool) (shift : Byte → Byte)

theorem State.shifted_reg {x : RegIdx} (hx : x ≠ 15) : (s.shifted x out shift).reg x = shift (s.reg x) := by
  rw [State.shifted, State.setReg_reg_self, s.setFlag_reg_of_ne hx]

theorem State.shifted_flag {x : RegIdx} (hx : x ≠ 15) :
    (s.shifted x out shift).reg 15 = flagByte (out (s.reg x)) := by
  rw [State.shifted, State.setReg_reg_of_ne _ hx.symm, State.setFlag_reg_flag]

theorem State.shifted_flag_of_flag :
    (s.shifted 15 out shift).reg 15 = shift (flagByte (out (s.reg 15))) := by
  rw [State.shifted, State.setReg_reg_self, State.setFlag_reg_flag]

theorem State.shifted_frame (x : RegIdx) : Frame {.v x, .v 15} s (s.shifted x out shift) :=
  frame_setFlag_setReg s x _ _

end shifted

/-! The bits shifted out and the shifts as numbers. -/

theorem flagByte_toNat (b : Bool) : (flagByte b).toNat = b.toNat := by cases b <;> rfl

theorem lowBit_toNat (a : Byte) : (lowBit a).toNat = a.toNat % 2 := by
  rw [lowBit, BitVec.getLsbD, Nat.toNat_testBit, pow_zero, Nat.div_one]

/-- A byte has no bit above bit 7, so that no remainder is taken. -/
theorem highBit_toNat (a : Byte) : (highBit a).toNat = a.toNat / 128 := by
  have below : a.toNat / 128 < 2 := Nat.div_lt_of_lt_mul a.isLt
  exact (Nat.toNat_testBit a.toNat 7).trans (Nat.mod_eq_of_lt below)

theorem Byte.toNat_shiftRight_one (a : Byte) : (a >>> 1).toNat = a.toNat / 2 := by
  rw [BitVec.toNat_ushiftRight, Nat.shiftRight_eq_div_pow, pow_one]

theorem Byte.toNat_shiftLeft_one (a : Byte) : (a <<< 1).toNat = a.toNat * 2 % 256 := by
  rw [BitVec.toNat_shiftLeft, Nat.shiftLeft_eq, pow_one]

/-- A flag is 0 or 1, so that shifted right it is 0 and shifted left 0 or 2 (D4). -/
theorem flagByte_shiftRight_one (b : Bool) : flagByte b >>> 1 = 0 := by cases b <;> rfl

theorem flagByte_shiftLeft_one_toNat (b : Bool) : (flagByte b <<< 1).toNat = 2 * b.toNat := by cases b <;> rfl

/-- Settles O39: the bit shifted out is the remainder by 2 and V[X] the quotient. -/
theorem shiftRight : Obligations.ShiftRight := by
  refine fun x y => ⟨encodes_encode (.shr x y), fun s =>
    ⟨_, exec_shr x y s, fun hx => ⟨?result, ?flag⟩, ?flagShifted, s.shifted_frame _ _ x⟩⟩
  case result => rw [s.shifted_reg _ _ hx, Byte.toNat_shiftRight_one]
  case flag => rw [s.shifted_flag _ _ hx, flagByte_toNat, lowBit_toNat]
  case flagShifted =>
    rintro rfl
    rw [State.shifted_flag_of_flag, flagByte_shiftRight_one]

/-- Settles O40: the bit shifted out is the quotient by 128 and V[X] the double modulo 256. -/
theorem shiftLeft : Obligations.ShiftLeft := by
  refine fun x y => ⟨encodes_encode (.shl x y), fun s =>
    ⟨_, exec_shl x y s, fun hx => ⟨?result, ?flag⟩, ?flagShifted, s.shifted_frame _ _ x⟩⟩
  case result => rw [s.shifted_reg _ _ hx, Byte.toNat_shiftLeft_one]
  case flag => rw [s.shifted_flag _ _ hx, flagByte_toNat, highBit_toNat]
  case flagShifted =>
    rintro rfl
    rw [State.shifted_flag_of_flag, flagByte_shiftLeft_one_toNat, highBit_toNat]

end Sys2Proof.Machine
end

section
/-! The index register and memory instructions (spec/43_index_memory.md): I written, the three digits, and the blocks
of registers stored and loaded, each with the fault its check of memory raises. -/

namespace Sys2Proof.Machine

/-! I written (R160 to R162). -/

/-- A byte has five times its value below 2^16, so that the product does not wrap (R162, D17). -/
theorem glyphAddress_toNat (b : Byte) : (glyphAddress b).toNat = 5 * b.toNat := by
  have five : (5 : Word).toNat = 5 := rfl
  have hb := b.isLt
  rw [glyphAddress, BitVec.toNat_mul, Byte.zext_toNat, five, Nat.mod_eq_of_lt (by omega)]

/-- Settles O42: the instruction writes I only, with the operand as a word. -/
theorem loadIndex : Obligations.LoadIndex := fun nnn =>
  ⟨encodes_encode (.ldI nnn), fun s => ⟨s.setI nnn.zext, rfl, Addr12.zext_toNat nnn, frame_setI s _⟩⟩

/-- Settles O43: the instruction writes I only, with a sum of words, which is one modulo 2^16. -/
theorem addToIndex : Obligations.AddToIndex := by
  refine fun x => ⟨encodes_encode (.addI x), fun s => ⟨s.setI (s.i + (s.reg x).zext), rfl, ?_, frame_setI s _⟩⟩
  rw [State.setI_i, BitVec.toNat_add, Byte.zext_toNat]

/-- Settles O44: the instruction writes I only, with the product, which fits in 16 bits. -/
theorem loadFontAddress : Obligations.LoadFontAddress := fun x =>
  ⟨encodes_encode (.ldF x), fun s =>
    ⟨s.setI (glyphAddress (s.reg x)), rfl, glyphAddress_toNat _, frame_setI s _⟩⟩

/-! A block that does not fit (R54): the check faults before anything is written (D12). -/

theorem State.checked_faultedFrom (s : State) {a n : Nat} (r : Result) (hn : n ≠ 0) (outside : a + n > 4096) :
    ∃ t, s.checked a n r = .next t ∧ FaultedFrom s t (s.pc - 2) (.memoryOutOfRange (lowestBad a)) :=
  ⟨_, s.checked_of_bad a n r hn outside, s.takeFault_faultedFrom _ _⟩

/-! The three digits (R163). -/

theorem bcdHundreds_toNat (b : Byte) : (bcdHundreds b).toNat = b.toNat / 100 := by
  have hb := b.isLt
  rw [bcdHundreds, BitVec.toNat_ofNat, Nat.mod_eq_of_lt (by omega)]

theorem bcdTens_toNat (b : Byte) : (bcdTens b).toNat = b.toNat / 10 % 10 := by
  rw [bcdTens, BitVec.toNat_ofNat, Nat.mod_eq_of_lt (by omega)]

theorem bcdOnes_toNat (b : Byte) : (bcdOnes b).toNat = b.toNat % 10 := by
  rw [bcdOnes, BitVec.toNat_ofNat, Nat.mod_eq_of_lt (by omega)]

section writes
variable (s : State) {a : Nat} (v : Byte)

theorem State.readMem_writeMem_self (fits : a < 4096) : (s.writeMem a v).readMem a = v := by
  rw [State.readMem_writeMem, if_pos ⟨rfl, fits⟩]

theorem State.readMem_writeMem_of_ne {b : Nat} (hb : b ≠ a) : (s.writeMem a v).readMem b = s.readMem b := by
  rw [State.readMem_writeMem, if_neg fun h => hb h.1]

end writes

/-- The state FX33 answers when its three bytes are in memory. -/
def State.digitsStored (s : State) (b : Byte) : State :=
  ((s.writeMem s.i.toNat (bcdHundreds b)).writeMem (s.i.toNat + 1) (bcdTens b)).writeMem (s.i.toNat + 2) (bcdOnes b)

theorem exec_ldB_of_fits (x : RegIdx) (s : State) (fits : s.i.toNat + 2 ≤ 4095) :
    exec (.ldB x) s = .next (s.digitsStored (s.reg x)) :=
  s.checked_of_fits _ _ _ (.inr (by omega))

section digits
variable (s : State) (b : Byte) (fits : s.i.toNat + 2 ≤ 4095)
include fits

theorem State.digitsStored_hundreds : ((s.digitsStored b).readMem s.i.toNat).toNat = b.toNat / 100 := by
  rw [State.digitsStored, State.readMem_writeMem_of_ne _ _ (by omega), State.readMem_writeMem_of_ne _ _ (by omega),
    State.readMem_writeMem_self _ _ (by omega), bcdHundreds_toNat]

theorem State.digitsStored_tens : ((s.digitsStored b).readMem (s.i.toNat + 1)).toNat = b.toNat / 10 % 10 := by
  rw [State.digitsStored, State.readMem_writeMem_of_ne _ _ (by omega), State.readMem_writeMem_self _ _ (by omega),
    bcdTens_toNat]

theorem State.digitsStored_ones : ((s.digitsStored b).readMem (s.i.toNat + 2)).toNat = b.toNat % 10 := by
  rw [State.digitsStored, State.readMem_writeMem_self _ _ (by omega), bcdOnes_toNat]

end digits

/-- Settles O45: within memory each digit stands where it was written, since the later writes are to other addresses;
outside it the check of R54 faults. -/
theorem storeBinaryCodedDecimal : Obligations.StoreBinaryCodedDecimal := by
  refine fun x => ⟨encodes_encode (.ldB x), fun s => ⟨fun fits => ?runs, fun outside => ?faults⟩⟩
  case runs =>
    exact ⟨_, exec_ldB_of_fits x s fits, s.digitsStored_hundreds _ fits, s.digitsStored_tens _ fits,
      s.digitsStored_ones _ fits, frame_three_writeMem s _ _ _ _⟩
  case faults => exact s.checked_faultedFrom _ (by decide) (by omega)

/-! A block of registers (R164, R165). -/

/-- FX65 within memory loads its block (R165). -/
theorem exec_ldVxMem_of_fits (x : RegIdx) (s : State) (fits : s.i.toNat + x.val ≤ 4095) :
    exec (.ldVxMem x) s = .next (s.loadRegs (x.val + 1)) :=
  s.checked_of_fits _ _ _ (.inr (by omega))

section block
variable (s : State) {x k : RegIdx}

/-- The block is at most 16 bytes, and with I + X in memory it is all in memory (R164). -/
theorem State.storeRegs_readMem_of_le (fits : s.i.toNat + x.val ≤ 4095) (hk : k.val ≤ x.val) :
    (s.storeRegs (x.val + 1)).readMem (s.i.toNat + k.val) = s.reg k :=
  s.storeRegs_readMem _ x.isLt (by omega) k (Nat.lt_succ_of_le hk)

theorem State.loadRegs_reg_of_le (hk : k.val ≤ x.val) :
    (s.loadRegs (x.val + 1)).reg k = s.readMem (s.i.toNat + k.val) := by
  rw [s.loadRegs_reg _ x.isLt, if_pos (Nat.lt_succ_of_le hk)]

theorem State.loadRegs_reg_of_gt (hk : k.val > x.val) : (s.loadRegs (x.val + 1)).reg k = s.reg k := by
  rw [s.loadRegs_reg _ x.isLt, if_neg (by omega)]

theorem State.loadRegs_frame_of_le (x : RegIdx) :
    Frame {p | ∃ k : RegIdx, k.val ≤ x.val ∧ p = .v k} s (s.loadRegs (x.val + 1)) := by
  simpa only [Nat.lt_succ_iff] using s.loadRegs_frame (x.val + 1) x.isLt

end block

/-- Settles O46: within memory the instruction answers the stored block, outside it the check of R54 faults. -/
theorem storeRegisters : Obligations.StoreRegisters := by
  refine fun x => ⟨encodes_encode (.ldMemVx x), fun s => ⟨fun fits => ?runs, fun outside => ?faults⟩⟩
  case runs =>
    exact ⟨_, exec_ldMemVx_of_fits x s fits, fun _ hk => s.storeRegs_readMem_of_le fits hk, s.storeRegs_frame _⟩
  case faults => exact s.checked_faultedFrom _ (Nat.succ_ne_zero _) (by omega)

/-- Settles O47: within memory the instruction answers the loaded block, outside it the check of R54 faults. -/
theorem loadRegisters : Obligations.LoadRegisters := by
  refine fun x => ⟨encodes_encode (.ldVxMem x), fun s => ⟨fun fits => ?runs, fun outside => ?faults⟩⟩
  case runs =>
    exact ⟨_, exec_ldVxMem_of_fits x s fits, fun _ hk => s.loadRegs_reg_of_le hk, s.loadRegs_frame_of_le x⟩
  case faults => exact s.checked_faultedFrom _ (Nat.succ_ne_zero _) (by omega)

/-- Settles O48: the load reads the bytes the store left, each of them the register of its number. -/
theorem storeThenLoadRestores : Obligations.StoreThenLoadRestores := by
  intro x s t u fits stored index bytes
  obtain rfl : s.storeRegs (x.val + 1) = t := by
    rw [exec_ldMemVx_of_fits x s fits] at stored
    cases stored; rfl
  refine ⟨_, exec_ldVxMem_of_fits x u (index ▸ fits), fun k hk => ?_, fun _ hk => u.loadRegs_reg_of_gt hk⟩
  calc (u.loadRegs (x.val + 1)).reg k
      = u.readMem (u.i.toNat + k.val) := u.loadRegs_reg_of_le hk
    _ = (s.storeRegs (x.val + 1)).readMem (s.i.toNat + k.val) := by rw [bytes, index]
    _ = s.reg k := s.storeRegs_readMem_of_le fits hk

end Sys2Proof.Machine
end

section
/-! The key and timer instructions (spec/44_keys_timers.md): the skips on a key and the fault of a key index above 15,
the transfers between V[X] and the timers, and the wait for a key. -/

namespace Sys2Proof.Machine

/-! Skips on a key (R180, R181, R186). -/

theorem keyIndex_of_eq {b : Byte} {k : Fin 16} (hk : k.val = b.toNat) : keyIndex b = some k := by
  rw [keyIndex, dif_pos (hk ▸ k.isLt), Option.some_inj]
  exact Fin.ext hk.symm

theorem keyIndex_of_gt {b : Byte} (above : b.toNat > 15) : keyIndex b = none := by
  rw [keyIndex, dif_neg (by omega)]

theorem State.skipIf_pc (s : State) (c : Bool) : (s.skipIf c).pc = if c = true then s.pc + 2 else s.pc := by
  cases c <;> rfl

theorem State.skipIf_not_pc (s : State) (c : Bool) : (s.skipIf (!c)).pc = if c = true then s.pc else s.pc + 2 := by
  cases c <;> rfl

section keySkip
variable {x : RegIdx} {s : State}

theorem exec_skp_of_key {k : Fin 16} (hk : k.val = (s.reg x).toNat) :
    exec (.skp x) s = .next (s.skipIf (s.held k)) := by
  simp only [exec, execSkp, keyIndex_of_eq hk]

theorem exec_sknp_of_key {k : Fin 16} (hk : k.val = (s.reg x).toNat) :
    exec (.sknp x) s = .next (s.skipIf (!s.held k)) := by
  simp only [exec, execSknp, keyIndex_of_eq hk]

theorem exec_keySkip_of_gt {i : Instr} (hi : i = .skp x ∨ i = .sknp x) (above : (s.reg x).toNat > 15) :
    exec i s = .next (s.takeFault (s.pc - 2) (.keyIndexOutOfRange (s.reg x))) := by
  obtain rfl | rfl := hi
  · simp only [exec, execSkp, keyIndex_of_gt above, State.raise]
  · simp only [exec, execSknp, keyIndex_of_gt above, State.raise]

end keySkip

/-- Settles O50: with a key selected each skip is a `skipIf` on it, above 15 none is selected and both fault. -/
theorem keySkips : Obligations.KeySkips := by
  refine fun x => ⟨encodes_encode (.skp x), encodes_encode (.sknp x), fun s =>
    ⟨fun k hk => ?skips, fun above i hi => ?faults⟩⟩
  case skips =>
    exact ⟨⟨_, exec_skp_of_key hk, s.skipIf_pc _, frame_skipIf s _⟩,
      ⟨_, exec_sknp_of_key hk, s.skipIf_not_pc _, frame_skipIf s _⟩⟩
  case faults => exact ⟨_, exec_keySkip_of_gt hi above, s.takeFault_faultedFrom _ _⟩

/-! The timers (R182, R184, R185). -/

/-- Settles O51: each transfer is one write, of V[X], of DT or of ST. -/
theorem timerTransfers : Obligations.TimerTransfers := fun x =>
  ⟨encodes_encode (.ldVxDt x), encodes_encode (.ldDtVx x), encodes_encode (.ldStVx x), fun s =>
    ⟨⟨s.setReg x s.dt, rfl, s.setReg_reg_self x _, frame_setReg s x _⟩,
      ⟨s.setDt (s.reg x), rfl, s.setDt_dt _, frame_setDt s _⟩,
      ⟨s.setSt (s.reg x), rfl, s.setSt_st _, frame_setSt s _⟩⟩⟩

/-! The wait for a key (R183). -/

section wait
variable {s : State}

/-- The search goes through the keys in ascending order, so that what it finds is the least key held. -/
theorem State.firstHeld_eq_some_iff {k : Fin 16} :
    s.firstHeld = some k ↔ s.held k = true ∧ ∀ j < k, s.held j = false := by
  rw [State.firstHeld, List.find?_eq_some_iff_getElem]
  refine and_congr_right fun _ => ⟨?_, fun below => ?_⟩
  · rintro ⟨i, hi, rfl, below⟩ j hj
    simpa using below j.val (by simpa [Fin.lt_def] using hj)
  · exact ⟨k.val, by simp, by simp, fun j hj => by simpa using below ⟨j, by omega⟩ hj⟩

theorem State.firstHeld_eq_none_iff : s.firstHeld = none ↔ ∀ k, s.held k = false := by
  simp only [State.firstHeld, List.find?_eq_none, List.mem_finRange, true_imp_iff, Bool.not_eq_true]

theorem exec_ldVxK_of_some (x : RegIdx) {k : Fin 16} (least : s.firstHeld = some k) :
    exec (.ldVxK x) s = .next (s.setReg x (BitVec.ofNat 8 k.val)) := by
  simp only [exec, execLdVxK, least]

theorem exec_ldVxK_of_none (x : RegIdx) (released : s.firstHeld = none) :
    exec (.ldVxK x) s = .next (s.setPc (s.pc - 2)) := by
  simp only [exec, execLdVxK, released]

end wait

/-- A key's number is below 16, so that it fits in a byte. -/
theorem key_byte_toNat (k : Fin 16) : (BitVec.ofNat 8 k.val).toNat = k.val := by
  rw [BitVec.toNat_ofNat, Nat.mod_eq_of_lt (by omega)]

/-- Settles O52: the search for the least key held answers `k`, or nothing where no key is held. -/
theorem waitForKey : Obligations.WaitForKey := by
  refine fun x => ⟨encodes_encode (.ldVxK x), fun s => ⟨fun k held least => ?stores, fun released => ?waits⟩⟩
  case stores =>
    refine ⟨_, exec_ldVxK_of_some x (State.firstHeld_eq_some_iff.mpr ⟨held, least⟩), ?_, frame_setReg s x _⟩
    rw [State.setReg_reg_self, key_byte_toNat]
  case waits =>
    exact ⟨_, exec_ldVxK_of_none x (State.firstHeld_eq_none_iff.mpr released), s.setPc_pc _, frame_setPc s _⟩

end Sys2Proof.Machine
end

section
/-! The faults (spec/60_exceptions.md, R200 to R206): which fault an instruction raises and why, that every state has
a step, and that a step keeps the fault record true. -/

namespace Sys2Proof.Machine

/-! The fault an instruction raises (R203). -/

/-- The instruction answers a state with STATUS as it was, or raises a fault that R203 allows it and whose cause holds. -/
def RaisesTruly (i : Instr) (s : State) (r : Result) : Prop :=
  (∃ t, r = .next t ∧ t.status = s.status) ∨ ∃ k, r = s.raise k ∧ mayRaise i k ∧ causeHolds s k

/-- The check of R54 raises MemoryOutOfRange, with an address that is above 4095. -/
theorem State.checked_raisesTruly {i : Instr} {s t : State} {a n : Nat} (kept : t.status = s.status)
    (allowed : n ≠ 0 → ∀ bad, mayRaise i (.memoryOutOfRange bad)) : RaisesTruly i s (s.checked a n (.next t)) := by
  by_cases fits : n = 0 ∨ a + n ≤ 4096
  · exact .inl ⟨t, s.checked_of_fits a n _ fits, kept⟩
  · have above : max a 4096 > 4095 := lt_max_of_lt_right (by decide)
    exact .inr ⟨_, s.checked_of_bad a n _ (by omega) (by omega), allowed (by omega) _, above⟩

theorem exec_ret_raisesTruly (s : State) : RaisesTruly .ret s (exec .ret s) := by
  obtain empty | used := Nat.eq_zero_or_pos s.sp.val
  · exact .inr ⟨_, exec_ret_of_empty s empty, rfl, empty⟩
  · obtain ⟨t, returned, -, -, framed⟩ := exec_ret_of_entry s (k := ⟨s.sp.val - 1, by omega⟩) (by simp only; omega)
    exact .inl ⟨t, returned, framed .status (by simp)⟩

theorem exec_call_raisesTruly (nnn : Addr12) (s : State) : RaisesTruly (.call nnn) s (exec (.call nnn) s) := by
  obtain room | full := Nat.lt_or_ge s.sp.val 16
  · obtain ⟨t, called, -, -, -, framed⟩ := exec_call_of_room s nnn (k := ⟨s.sp.val, room⟩) rfl
    exact .inl ⟨t, called, framed .status (by simp)⟩
  · have full : s.sp.val = 16 := by omega
    exact .inr ⟨_, exec_call_of_full s nnn full, rfl, full⟩

theorem State.skipIf_status (s : State) (c : Bool) : (s.skipIf c).status = s.status :=
  frame_skipIf s c .status (by simp)

theorem State.loadRegs_status (s : State) (x : RegIdx) : (s.loadRegs (x.val + 1)).status = s.status :=
  s.loadRegs_frame _ x.isLt .status (by simp)

theorem exec_keySkip_raisesTruly {i : Instr} {x : RegIdx} (hi : i = .skp x ∨ i = .sknp x) (s : State) :
    RaisesTruly i s (exec i s) := by
  obtain small | above := Nat.lt_or_ge (s.reg x).toNat 16
  · have key : (⟨(s.reg x).toNat, small⟩ : Fin 16).val = (s.reg x).toNat := rfl
    obtain rfl | rfl := hi
    · exact .inl ⟨_, exec_skp_of_key key, s.skipIf_status _⟩
    · exact .inl ⟨_, exec_sknp_of_key key, s.skipIf_status _⟩
  · have allowed : mayRaise i (.keyIndexOutOfRange (s.reg x)) := by
      obtain rfl | rfl := hi <;> exact ⟨_, rfl⟩
    exact .inr ⟨_, exec_keySkip_of_gt hi above, allowed, above⟩

theorem execLdVxK_raisesTruly (x : RegIdx) (s : State) : RaisesTruly (.ldVxK x) s (execLdVxK x s) := by
  obtain ⟨b, h⟩ | h := execLdVxK_cases x s
  · exact .inl ⟨_, h, rfl⟩
  · exact .inl ⟨_, h, rfl⟩

/-- R203: the instructions with a check raise its fault, and no other instruction writes STATUS. -/
theorem exec_raisesTruly (i : Instr) (s : State) : RaisesTruly i s (exec i s) := by
  cases i with
  | ret => exact exec_ret_raisesTruly s
  | call nnn => exact exec_call_raisesTruly nnn s
  | skp x => exact exec_keySkip_raisesTruly (.inl rfl) s
  | sknp x => exact exec_keySkip_raisesTruly (.inr rfl) s
  | drw x y n => exact State.checked_raisesTruly rfl fun rows bad => ⟨Nat.one_le_iff_ne_zero.mpr rows, bad, rfl⟩
  | ldB x => exact State.checked_raisesTruly rfl fun _ bad => ⟨bad, rfl⟩
  | ldMemVx x => exact State.checked_raisesTruly (s.storeRegs_status _) fun _ bad => ⟨bad, rfl⟩
  | ldVxMem x => exact State.checked_raisesTruly (s.loadRegs_status x) fun _ bad => ⟨bad, rfl⟩
  | ldVxK x => exact execLdVxK_raisesTruly x s
  | seImm x nn | sneImm x nn => exact .inl ⟨_, rfl, s.skipIf_status _⟩
  | seReg x y | sneReg x y => exact .inl ⟨_, rfl, s.skipIf_status _⟩
  | cls0000 | cls00E0 => exact .inl ⟨_, rfl, rfl⟩
  | jp nnn | jpV0 nnn | ldI nnn => exact .inl ⟨_, rfl, rfl⟩
  | ldImm x nn | addImm x nn | rnd x nn => exact .inl ⟨_, rfl, rfl⟩
  | ldReg x y | orReg x y | andReg x y | xorReg x y => exact .inl ⟨_, rfl, rfl⟩
  | addReg x y | subReg x y | shr x y | subn x y | shl x y => exact .inl ⟨_, rfl, rfl⟩
  | ldVxDt x | ldDtVx x | ldStVx x | addI x | ldF x => exact .inl ⟨_, rfl, rfl⟩

/-- A running core that an instruction leaves faulted has the fault the instruction raised. -/
theorem exec_fault {i : Instr} {s t : State} (safe : Safe s) (h : exec i s = .next t) (faulted : ¬ Safe t) :
    ∃ k, t = s.takeFault (s.pc - 2) k ∧ mayRaise i k ∧ causeHolds s k := by
  obtain ⟨u, hu, kept⟩ | ⟨k, hk, allowed, cause⟩ := exec_raisesTruly i s
  · cases h.symm.trans hu
    exact absurd (kept.trans safe) faulted
  · cases h.symm.trans hk
    exact ⟨k, rfl, allowed, cause⟩

/-- Settles O12: the record is the one the raise wrote, with the kind allowed and the address A. -/
theorem faultsPerInstruction : Obligations.FaultsPerInstruction := by
  intro i s t f safe h recorded
  obtain ⟨k, rfl, allowed, -⟩ := exec_fault safe h (by simp [Safe, recorded])
  cases recorded
  exact ⟨allowed, rfl⟩

/-! The fault a step takes (R200, R201). -/

/-- A step that faults a running core takes the fault at PC, and its cause holds: an address above 4095 in the fetch,
an illegal word in the decode, or the cause the instruction checked. -/
theorem step_fault {s t : State} (safe : Safe s) (h : step s = .next t) (faulted : ¬ Safe t) :
    ∃ k, t = s.takeFault s.pc k ∧ causeHolds s k := by
  obtain ⟨f, hs, rfl⟩ | ⟨-, -, rfl⟩ | ⟨-, -, rejected, rfl⟩ | ⟨-, -, i, -, executed⟩ := step_cases h
  · exact absurd safe faulted
  · have above : max s.pc.toNat 4096 > 4095 := lt_max_of_lt_right (by decide)
    exact ⟨_, rfl, above⟩
  · exact ⟨_, rfl, (rejectedWordsAreIllegalWords _).mp rejected⟩
  · obtain ⟨k, rfl, -, cause⟩ := exec_fault (s := s.advance) safe executed faulted
    exact ⟨k, by rw [s.advance_pc_sub]; rfl, cause⟩

/-- Settles O10: taking a fault writes PC, with the address it holds, and STATUS. -/
theorem faultsArePrecise : Obligations.FaultsArePrecise := by
  intro s t safe h faulted
  obtain ⟨k, rfl, cause⟩ := step_fault safe h faulted
  exact ⟨k, s.takeFault_faultedFrom s.pc k, cause⟩

theorem RecordTrue.of_safe {s : State} (safe : Safe s) : RecordTrue s := fun _ recorded =>
  nomatch safe.symm.trans recorded

theorem RecordTrue.takeFault {s : State} {k : FaultKind} (cause : causeHolds s k) (a : Word) :
    RecordTrue (s.takeFault a k) := by
  intro f recorded
  cases recorded
  exact ⟨rfl, cause⟩

/-- Settles O16: a faulted core keeps its record, and a running core ends running or with the fault the step took. -/
theorem stepKeepsRecordTrue : Obligations.StepKeepsRecordTrue := by
  intro s t hs h
  cases status : s.status with
  | faulted f =>
    rw [step_of_faulted s f status] at h
    cases h; exact hs
  | running =>
    by_cases running : Safe t
    · exact .of_safe running
    · obtain ⟨k, rfl, cause⟩ := step_fault status h running
      exact .takeFault cause s.pc

end Sys2Proof.Machine
end

section
/-! The core and its host (spec/60_exceptions.md, R202, R210 to R226): that everything is answered, what `clock(n)` is,
what the transactions keep, the ROM, the keys and the display, and that a fault is sticky. -/

namespace Sys2Proof.Machine

/-! Every step and every run is answered (spec/93). -/

theorem exec_total (i : Instr) (s : State) : ∃ t, exec i s = .next t := by
  obtain ⟨t, ht, -⟩ | ⟨k, hk, -⟩ := exec_raisesTruly i s
  · exact ⟨t, ht⟩
  · exact ⟨_, hk⟩

theorem step_total (s : State) : ∃ t, step s = .next t := by
  cases status : s.status with
  | faulted f => exact ⟨s, step_of_faulted s f status⟩
  | running =>
    obtain inMemory | outside := le_or_gt s.pc.toNat 4094
    · cases hd : decode (s.wordAt s.pc.toNat) with
      | none => exact ⟨_, step_of_illegal s status inMemory hd⟩
      | some i => exact step_of_decode s i status inMemory hd ▸ exec_total i s.advance
    · exact ⟨_, step_of_fetch_fault s status outside⟩

/-- A run of any core begins with its first step. -/
theorem coreRun_succ {M : Host.Core} {s u : M.State} (h : M.step s = .next u) (n : Nat) :
    M.run (n + 1) s = M.run n u := by
  rw [Host.Core.run, h]

theorem run_succ {s u : State} (h : step s = .next u) (n : Nat) :
    Host.Core.run core (n + 1) s = Host.Core.run core n u :=
  coreRun_succ (M := core) h n

theorem run_total (n : Nat) (s : State) : ∃ t : State, Host.Core.run core n s = .next t := by
  induction n generalizing s with
  | zero => exact ⟨s, rfl⟩
  | succ n ih =>
    obtain ⟨u, hu⟩ := step_total s
    exact run_succ hu n ▸ ih u

/-- What every step keeps, a run keeps. -/
theorem run_keeps {P : State → Prop} (kept : ∀ s t, P s → step s = .next t → P t) {n : Nat} {s t : State} (hs : P s)
    (h : Host.Core.run core n s = .next t) : P t := by
  induction n generalizing s with
  | zero => cases h; exact hs
  | succ n ih =>
    obtain ⟨u, hu⟩ := step_total s
    exact ih (kept s u hs hu) (run_succ hu n ▸ h)

/-! `clock(n)` is a run and then `clock(0)` (R210). -/

theorem clock_of_faulted (n : Nat) {s : State} {f : FaultRecord} (h : s.status = .faulted f) :
    clock n s = .next (s, .err f) := by
  rw [clock.eq_def, h]

theorem clock_zero_of_running {s : State} (h : s.status = .running) :
    clock 0 s = .next (s.timerTick, .ok s.timerTick.toneActive s.stopTone) := by
  simp only [clock, h]

/-- A step may be taken before the call: on a faulted core it does nothing, and neither does the call. -/
theorem clock_succ {s u : State} (h : step s = .next u) (n : Nat) : clock (n + 1) s = clock n u := by
  cases status : s.status with
  | faulted f =>
    rw [step_of_faulted s f status] at h
    cases h
    rw [clock_of_faulted _ status, clock_of_faulted _ status]
  | running => simp only [clock, status, h]

theorem clock_eq_of_run {n : Nat} {s t : State} (h : Host.Core.run core n s = .next t) : clock n s = clock 0 t := by
  induction n generalizing s with
  | zero => cases h; rfl
  | succ n ih =>
    obtain ⟨u, hu⟩ := step_total s
    rw [clock_succ hu, ih (run_succ hu n ▸ h)]

theorem clock_zero_total (s : State) : ∃ t c, clock 0 s = .next (t, c) := by
  cases status : s.status with
  | faulted f => exact ⟨_, _, clock_of_faulted 0 status⟩
  | running => exact ⟨_, _, clock_zero_of_running status⟩

theorem clock_total (n : Nat) (s : State) : ∃ t c, clock n s = .next (t, c) := by
  obtain ⟨t, ht⟩ := run_total n s
  exact clock_eq_of_run ht ▸ clock_zero_total t

theorem transact_clock {n : Nat} {s t : State} {c : ClockReply} (h : clock n s = .next (t, c)) :
    transact (.clock n) s = .next (t, .clock c) := by
  simp only [transact, h]

/-- Settles O11: each transaction but `clock` is answered by its definition, and `clock` because every step is. -/
theorem everyStepAndTransactionAnswers : Obligations.EveryStepAndTransactionAnswers := by
  refine ⟨step_total, fun tr s => ?_⟩
  cases tr with
  | reset | loadRom bytes | setKeys k | readDisplay => exact ⟨_, _, rfl⟩
  | clock n =>
    obtain ⟨t, c, h⟩ := clock_total n s
    exact ⟨t, _, transact_clock h⟩

/-! The timer tick (R211) and the tone outputs (R212). -/

theorem towardZero_toNat (b : Byte) : (towardZero b).toNat = b.toNat - 1 := by
  by_cases zero : b = 0
  · rw [towardZero, if_pos zero, zero]; rfl
  · rw [towardZero, if_neg zero]; bv_omega

theorem State.timerTick_frame (s : State) : Frame {.dt, .st} s s.timerTick :=
  (frame_setDt s _).comp (frame_setSt _ _)

theorem State.toneActive_eq (s : State) : s.toneActive = decide (s.st ≠ 0) := by
  rw [State.toneActive, Bool.eq_iff_iff, bne_iff_ne, decide_eq_true_iff]

theorem State.stopTone_eq (s : State) : s.stopTone = decide (s.st = 1) := by
  rw [State.stopTone, Bool.eq_iff_iff, beq_iff_eq, decide_eq_true_iff]

/-- Settles O53: the call is `clock(0)` on the state the steps end in, which is one tick on a running core and nothing on
a faulted one. -/
theorem clockIsStepsThenOneTick : Obligations.ClockIsStepsThenOneTick := by
  intro n s t h
  refine ⟨fun running => ⟨t.timerTick, ?_, towardZero_toNat t.dt, towardZero_toNat t.st, t.timerTick_frame⟩,
    fun f recorded => ?_⟩
  · rw [clock_eq_of_run h, clock_zero_of_running running, State.toneActive_eq, State.stopTone_eq]
  · rw [clock_eq_of_run h, clock_of_faulted 0 recorded]

/-! What the transactions keep. -/

/-- A property of the state that neither a step nor a write of memory nor a timer tick can end: these are all a `load_rom`
and a `clock` are made of. -/
structure KeptByCore (P : State → Prop) : Prop where
  step : ∀ s t, P s → step s = .next t → P t
  writeMem : ∀ s a v, P s → P (s.writeMem a v)
  timerTick : ∀ s, P s → P s.timerTick

section kept
variable {P : State → Prop} (kept : KeptByCore P) {s t : State} (hs : P s)
include kept hs

theorem KeptByCore.copyBytes (a : Nat) (bytes : List Byte) : P (s.copyBytes a bytes) := by
  induction bytes generalizing s a with
  | nil => exact hs
  | cons b rest ih => exact ih (kept.writeMem s a b hs) (a + 1)

theorem KeptByCore.loadRom (bytes : List Byte) : P (s.loadRom bytes).1 := by
  rw [State.loadRom]
  split
  · exact kept.copyBytes hs _ bytes
  · exact hs

theorem KeptByCore.clock {n : Nat} {c : ClockReply} (h : clock n s = .next (t, c)) : P t := by
  obtain ⟨u, hu⟩ := run_total n s
  have hP : P u := run_keeps kept.step hs hu
  rw [clock_eq_of_run hu] at h
  cases status : u.status with
  | faulted f => rw [clock_of_faulted 0 status] at h; cases h; exact hP
  | running => rw [clock_zero_of_running status] at h; cases h; exact kept.timerTick u hP

/-- A transaction keeps the property if it is not a reset or a `set_keys` that ends it. -/
theorem KeptByCore.transact {tr : Transaction} {r : Reply} (h : transact tr s = .next (t, r))
    (reset : tr = .reset → P s.hostReset) (keys : ∀ k, tr = .setKeys k → P (s.setKeys k)) : P t := by
  cases tr with
  | reset => cases h; exact reset rfl
  | loadRom bytes => cases h; exact kept.loadRom hs bytes
  | setKeys k => cases h; exact keys k rfl
  | readDisplay => cases h; exact hs
  | clock n =>
    obtain ⟨u, c, hc⟩ := clock_total n s
    rw [transact_clock hc] at h
    cases h
    exact kept.clock hs hc

end kept

/-! The three invariants. -/

theorem memoryCanonical_keptByCore : KeptByCore MemoryCanonical where
  step := stepKeepsMemoryCanonical
  writeMem _ a v hs := hs.writeMem a v
  timerTick _ hs := hs

/-- Neither memory nor a timer is a part the record speaks of. -/
theorem recordTrue_keptByCore : KeptByCore RecordTrue where
  step := stepKeepsRecordTrue
  writeMem _ _ _ hs := hs
  timerTick _ hs := hs

theorem pcBounded_keptByCore : KeptByCore PcBounded where
  step := stepKeepsPcBounded
  writeMem _ _ _ hs := hs
  timerTick _ hs := hs

/-- Reset leaves PC at 512 and every stack entry 0 (R241). -/
theorem State.hostReset_pcBounded (s : State) : PcBounded s.hostReset := by
  have pc : s.hostReset.pc.toNat = 512 := rfl
  have entry (k : Fin 16) : s.hostReset.entry k = 0 := Vector.getElem_replicate _
  exact ⟨by omega, fun k => by rw [entry]; decide⟩

/-- Settles O18: the core keeps each invariant, reset establishes it, and none speaks of the keys. -/
theorem transactionsKeepInvariants : Obligations.TransactionsKeepInvariants := by
  intro tr s t r h
  refine ⟨fun hs => ?_, fun hs => ?_, fun hs => ?_⟩
  · exact memoryCanonical_keptByCore.transact hs h (fun _ => State.construct_mem_wf s.font) fun _ _ => hs
  · exact recordTrue_keptByCore.transact hs h (fun _ => .of_safe rfl) fun _ _ => hs
  · exact pcBounded_keptByCore.transact hs h (fun _ => s.hostReset_pcBounded) fun _ _ => hs

/-! The ROM (R221). -/

theorem State.loadRom_of_fits (s : State) {bytes : List Byte} (fits : bytes.length ≤ 3584) :
    s.loadRom bytes = (s.copyBytes 512 bytes, .ok) :=
  if_pos (decide_eq_true fits)

theorem State.loadRom_of_long (s : State) {bytes : List Byte} (long : bytes.length > 3584) :
    s.loadRom bytes = (s, .romTooLarge) :=
  if_neg fun fits => Nat.not_le.mpr long (of_decide_eq_true fits)

/-- The k-th byte of a copy stands k bytes above the first. -/
theorem State.copyBytes_readMem_add (s : State) (a : Nat) {bytes : List Byte} (fits : a + bytes.length ≤ 4096) {k : Nat}
    (hk : k < bytes.length) : (s.copyBytes a bytes).readMem (a + k) = bytes[k] := by
  simp [s.copyBytes_readMem a bytes fits, hk]

/-- Settles O54: 512 + 3584 is 4096, so that a ROM that fits is copied byte by byte within memory. -/
theorem loadRom : Obligations.LoadRom := by
  intro bytes s
  refine ⟨fun fits => ⟨s.copyBytes 512 bytes, ?_, fun k hk => ?_, s.copyBytes_frame 512 bytes⟩, fun long => ?_⟩
  · rw [transact, s.loadRom_of_fits fits]
  · exact s.copyBytes_readMem_add 512 (by omega) hk
  · rw [transact, s.loadRom_of_long long]

/-! The keys (R222). -/

theorem step_held {s t : State} (h : step s = .next t) (j : Fin 16) : t.held j = s.held j := by
  by_contra changed
  obtain ⟨i, -, inFootprint⟩ := step_changes_only_footprint h (p := .key j) (by simp) changed
  exact key_notMem_footprint j inFootprint

theorem held_keptByCore (j : Fin 16) (b : Bool) : KeptByCore (fun s => s.held j = b) where
  step _ _ hs h := (step_held h j).trans hs
  writeMem _ _ _ hs := hs
  timerTick _ hs := hs

/-! The display in linear order (R34, R223). -/

/-- Rows of one length `n` side by side: element `x` of row `y` is at `x + n * y`. -/
theorem getElem?_flatten_of_length {α : Type} {n x : Nat} (hx : x < n) (rows : List (List α))
    (uniform : ∀ row ∈ rows, row.length = n) (y : Nat) :
    rows.flatten[x + n * y]? = rows[y]?.bind fun row => row[x]? := by
  induction rows generalizing y with
  | nil => rfl
  | cons row rest ih =>
    obtain ⟨len, uniform⟩ := List.forall_mem_cons.mp uniform
    cases y with
    | zero => simp [List.getElem?_append_left (len ▸ hx)]
    | succ y =>
      have past : x + n * (y + 1) = row.length + (x + n * y) := by rw [len]; ring
      rw [List.flatten_cons, past, List.getElem?_append_right (Nat.le_add_right _ _), Nat.add_sub_cancel_left,
        ih uniform, List.getElem?_cons_succ]

theorem Display.rows_length (d : Display) : ∀ row ∈ d.toList.map fun row => row.toList, row.length = 64 := by
  intro row hrow
  obtain ⟨cells, -, rfl⟩ := List.mem_map.mp hrow
  exact cells.length_toList

theorem Display.linear_length (d : Display) : d.linear.length = 2048 := by
  rw [Display.linear, List.length_flatten, List.map_congr_left d.rows_length, List.map_const',
    List.sum_replicate_nat, List.length_map, d.length_toList]

theorem Display.linear_getElem? (d : Display) (x : Fin 64) (y : Fin 32) :
    d.linear[x.val + 64 * y.val]? = some (d.cell x y) := by
  rw [Display.linear, getElem?_flatten_of_length x.isLt _ d.rows_length]
  simp [Display.cell]

/-- Settles O55: KEY is in no footprint and no part of a load or a tick, and the reply is the rows one after another. -/
theorem keysInDisplayOut : Obligations.KeysInDisplayOut := by
  refine ⟨fun k s => ⟨_, rfl, s.setKeys_held k, frame_setKeys s k⟩, fun s t j h => step_held h j, ?_,
    fun s => ⟨_, rfl, s.disp.linear_length, s.disp.linear_getElem?⟩⟩
  intro tr s t r j h notReset notKeys
  exact (held_keptByCore j _).transact rfl h (fun reset => absurd reset notReset) fun k keys => absurd keys (notKeys k)

/-! A fault is sticky (R202, R213, R242). -/

theorem faulted_keptByCore (f : FaultRecord) : KeptByCore (fun s => s.status = .faulted f) where
  step s t hs h := by
    rw [step_of_faulted s f hs] at h
    cases h; exact hs
  writeMem _ _ _ hs := hs
  timerTick _ hs := hs

/-- Settles O56: the core keeps the fault, `set_keys` does not write STATUS, and reset starts a running core. -/
theorem onlyResetClearsFault : Obligations.OnlyResetClearsFault := by
  intro s f hs
  refine ⟨step_of_faulted s f hs, fun n => clock_of_faulted n hs, fun tr => ?_⟩
  obtain ⟨-, answered⟩ := everyStepAndTransactionAnswers
  obtain ⟨t, r, h⟩ := answered tr s
  refine ⟨t, r, h, fun reset => ?_, fun notReset => ?_⟩
  · subst reset
    cases h; rfl
  · exact (faulted_keptByCore f).transact hs h (fun reset => absurd reset notReset) fun _ _ => hs

end Sys2Proof.Machine
end

section
/-! Reset (spec/70_reset_and_hazards.md): each piece of the state that construction and the reset operation leave (R240,
R241). Both are `hostReset`, so that its lemmas speak of construction too. -/

namespace Sys2Proof.Machine

/-- Construction is the reset of the state it builds: its draw counter is 0 already. -/
theorem State.hostReset_construct (font : Font) : (State.construct font).hostReset = State.construct font := rfl

/-! The reset contents of memory: the font below address 80, zeros from there on. -/

theorem Memory.resetByte_of_lt (font : Font) {a : Nat} (h : a < 80) : Memory.resetByte font a = font[a] := dif_pos h

theorem Memory.resetByte_of_ge (font : Font) {a : Nat} (h : 80 ≤ a) : Memory.resetByte font a = 0 :=
  dif_neg (Nat.not_lt.mpr h)

/-! What a reset state reads as, by index. -/

section hostReset
variable (s : State)

@[simp] theorem State.hostReset_reg (r : RegIdx) : s.hostReset.reg r = 0 := Vector.getElem_replicate _

@[simp] theorem State.hostReset_entry (k : Fin 16) : s.hostReset.entry k = 0 := Vector.getElem_replicate _

@[simp] theorem State.hostReset_held (k : Fin 16) : s.hostReset.held k = false := Vector.getElem_replicate _

@[simp] theorem State.hostReset_disp : s.hostReset.disp = Display.off := rfl

@[simp] theorem State.hostReset_readMem (a : Nat) : s.hostReset.readMem a = Memory.resetByte s.font a := rfl

end hostReset

/-! The obligations. -/

/-- Settles O13: a constructed state is a reset state too; its registers, stack, keys and display are constant, and its
memory is the reset contents. -/
theorem resetState : Obligations.ResetState := by
  refine ⟨fun font s hs => ?_, rfl⟩
  obtain ⟨r, rfl, rfl⟩ : ∃ r : State, r.font = font ∧ s = r.hostReset := by
    obtain rfl | isReset := hs
    · exact ⟨State.construct font, rfl, (State.hostReset_construct font).symm⟩
    · exact isReset
  have fontBytes (a : Nat) (h : a < 80) : r.hostReset.readMem a = r.font[a] := by
    rw [r.hostReset_readMem, Memory.resetByte_of_lt r.font h]
  have zeroBytes (a : Nat) (h : 80 ≤ a) : r.hostReset.readMem a = 0 := by
    rw [r.hostReset_readMem, Memory.resetByte_of_ge r.font h]
  have cellsOff (x : Fin 64) (y : Fin 32) : r.hostReset.disp.cell x y = false := by
    rw [r.hostReset_disp, Display.off_cell]
  exact ⟨r.hostReset_reg, rfl, rfl, rfl, r.hostReset_entry, rfl, rfl, rfl, fontBytes, fun a h _ => zeroBytes a h, cellsOff,
    r.hostReset_held, rfl, rfl⟩

/-- Settles O14: no cell is listed, no fault is recorded, and PC and the stack are those of a reset. -/
theorem invariantsHoldAfterConstruct : Obligations.InvariantsHoldAfterConstruct := by
  intro font
  refine ⟨State.construct_mem_wf font, .of_safe rfl, ?_⟩
  rw [← State.hostReset_construct]
  exact State.hostReset_pcBounded _

end Sys2Proof.Machine
end
